-- ==== Sys2Proof/Word.lean ====
section
/-! DEFINITION. The word types of the engine (00_scope.md R7, R8, R15, R16).

Every value is an unsigned bit vector of exactly its width: a block and a key have 9 bits, a group
(which the source calls a nibble) has 3. Bit 0 is the least significant bit. -/

namespace Sys2Proof

/-- The one data width of the engine, 9 bits (R7). -/
abbrev Word := BitVec 9

/-- A block: plaintext, ciphertext or intermediate round state (R7). -/
abbrev Block := Word

/-- A key, used unchanged at every round (R7, R68). -/
abbrev Key := Word

/-- One of the three 3-bit groups of a block, and an entry or an address of a table (R8, R11). -/
abbrev Group := BitVec 3

/-- The eight values of a group, in rising order: the address space of a table (R39). -/
def groups : List Group := [0, 1, 2, 3, 4, 5, 6, 7]

end Sys2Proof
end

