-- ==== Sys2Proof/Config.lean ====
section
/-! DEFINITION. What is fixed when an instance is built (00_scope.md R9 to R14, 10_state.md R18), and
the values the spec leaves open. -/

namespace Sys2Proof

/-- A substitution table: eight entries of 3 bits (R11, R39). -/
abbrev Table := Vector Group 8

/-- The entry of a table at a 3-bit address: total, since an address is always in 0..7 (R37, R39). -/
def Table.read (t : Table) (a : Group) : Group := t[a.toNat]

/-- What holds of the constants of every instance: at least one round (R9, R10), and
`SBOX_INV[SBOX_FWD[v]] = v` for every `v` (R12, R33). -/
def constantsOk (rounds : Nat) (fwd inv : Table) : Bool :=
  decide (1 ≤ rounds) && groups.all fun v => Table.read inv (Table.read fwd v) == v

/-- The constants of an instance (R18), with the proof that the construction check has passed
(R13, R109, R124): an ill-formed configuration cannot be built. -/
structure Instance where
  /-- `ROUNDS`, the round count (R9). -/
  rounds : Nat
  /-- `SBOX_FWD`, the forward table (R11). -/
  sboxFwd : Table
  /-- `SBOX_INV`, the inverse table (R12). -/
  sboxInv : Table
  /-- The constants have passed the check of construction (R124). -/
  valid : constantsOk rounds sboxFwd sboxInv = true
deriving DecidableEq, Repr

/-- FREE VALUE, no body: the n-th value that a register of 9 bits holds where the spec says that it
has no value: `BLOCK` and `KEYR` after a RESET event (R35, R122), `KEYR` after a command (R20, R128).
Nothing can be proved of it. Log entries 4 and 5. Safe. -/
opaque Config.lostWord : Nat → Word

/-- FREE VALUE, no body: the observed frequency `count / N` of the collector when no sample was drawn, to
which the spec gives no value (R101). Nothing can be proved of it. DESIGN CHOICE, log entry 23. Safe. -/
opaque Config.frequencyOfNoSample : Rat

/-- DESIGN CHOICE (log entry 3, unsafe): what `State.reset` holds in `BLOCK`, to which the spec gives
no value after reset and which must not be zero (R35). No rule reads it. -/
def Config.resetBlock : Block := 0b101010101#9

/-- DESIGN CHOICE (log entry 3, unsafe): what `State.reset` holds in `KEYR`, to which the spec gives
no value after reset and which must not be zero (R35). No rule reads it. -/
def Config.resetKey : Key := 0b010101010#9

/-- DESIGN CHOICE (log entry 6, unsafe): what the host drives on `din` in `State.reset`. -/
def Config.resetDin : Block := 0b001001001#9

/-- DESIGN CHOICE (log entry 6, unsafe): what the host drives on `key` in `State.reset`. -/
def Config.resetKeyPort : Key := 0b100100100#9

/-- DESIGN CHOICE (log entry 2, unsafe): the round count of the instance in `State.reset`, the
source's example value (R9). -/
def Config.resetRounds : Nat := 3

end Sys2Proof
end

