-- ==== Sys2Proof/Syntax.lean ====
section
/-! DEFINITION. The operations of the engine: two commands and four micro-operations
(30_encoding.md R56). No operation has an operand field: the operands are implicit (R55). -/

namespace Sys2Proof

/-- The two code formats (R53, R54). -/
inductive Format where
  /-- Format C, the command code on the port `cmd` (R53). -/
  | C
  /-- Format U, the control word the sequencer sends to the datapath (R54). -/
  | U
deriving DecidableEq, Repr

/-- The width of a format's code in bits (R58). -/
def Format.width : Format → Nat
  | .C => 1
  | .U => 2

/-- One constructor per row of the opcode table (R56). -/
inductive Instr where
  /-- ENC: the command encode (R80). -/
  | enc
  /-- DEC: the command decode (R89). -/
  | dec
  /-- KMIX: the micro-operation key mix (R66). -/
  | kmix
  /-- PERM: the micro-operation permute (R76). -/
  | perm
  /-- SUBF: the micro-operation forward substitution (R70). -/
  | subf
  /-- SUBI: the micro-operation inverse substitution (R71). -/
  | subi
deriving DecidableEq, Repr

/-- The format of an operation's code (R56). -/
def Instr.format : Instr → Format
  | .enc => .C
  | .dec => .C
  | .kmix => .U
  | .perm => .U
  | .subf => .U
  | .subi => .U

end Sys2Proof
end

