-- ==== Sys2Proof/WellFormed.lean ====
section
/-! DEFINITION. The checks of the spec on what is handed to the engine. An operation has no field, so
every operation is well formed (30_encoding.md R55, R57); what can be ill formed is a configuration
(00_scope.md R10, R13), a number a host presents as a block or key (10_state.md R32) and a position
of `get_bit` (40_bit_utilities.md R62). -/

namespace Sys2Proof

/-- Every operation is well formed: no code point is reserved and no operand can be wrong (R57). -/
def Instr.wf : Instr → Bool
  | .enc => true
  | .dec => true
  | .kmix => true
  | .perm => true
  | .subf => true
  | .subi => true

/-- A round count is a positive number (R9, R10). -/
def roundsOk (rounds : Nat) : Bool := decide (1 ≤ rounds)

/-- A table has eight entries (R13). -/
def tableLengthOk (entries : List Nat) : Bool := decide (entries.length = 8)

/-- Each entry of a table is in 0..7 (R13). -/
def tableRangeOk (entries : List Nat) : Bool := entries.all fun e => decide (e < 8)

/-- The entries of a table are pairwise distinct (R13). -/
def tableDistinctOk (entries : List Nat) : Bool := decide entries.Nodup

/-- A number a host presents as a block or key fits the 9-bit port (R32). -/
def portValueOk (n : Nat) : Bool := decide (n < 512)

/-- `get_bit` is defined for the positions 1 to 9 (R62). -/
def positionOk (p : Nat) : Bool := decide (1 ≤ p ∧ p ≤ 9)

end Sys2Proof
end

