-- ==== Sys2Proof/Machine/Tables.lean ====
section
/-! DEFINITION. The tables' contents and the construction of an instance (00_scope.md R9 to R14;
20_memory.md R38). -/

namespace Sys2Proof.Machine

/-- `SBOX_FWD`, the default forward table (R11, R38). -/
def defaultFwd : Table := #v[4, 0, 7, 3, 5, 1, 2, 6]

/-- `PBOX`, where the permutation moves bit `i` (R14, R75). -/
def pbox (i : Nat) : Nat := (i % 3) * 3 + i / 3

/-- The address at which a table holds the entry `w`, the first one if there are several. For a
permutation there is exactly one; the value 0 for an entry that is absent is never reached there. -/
def entryIndex (t : Table) (w : Group) : Group :=
  (groups.find? fun v => Table.read t v == w).getD 0

/-- `SBOX_INV` computed from a forward table by `SBOX_INV[SBOX_FWD[v]] = v` (R12, R13). -/
def invertTable (t : Table) : Table :=
  #v[entryIndex t 0, entryIndex t 1, entryIndex t 2, entryIndex t 3,
     entryIndex t 4, entryIndex t 5, entryIndex t 6, entryIndex t 7]

/-- The table whose entries are the eight first numbers of a list. Used on lists that have passed the
checks of R13 only. -/
def tableOf (entries : List Nat) : Table :=
  #v[BitVec.ofNat 3 (entries.getD 0 0), BitVec.ofNat 3 (entries.getD 1 0),
     BitVec.ofNat 3 (entries.getD 2 0), BitVec.ofNat 3 (entries.getD 3 0),
     BitVec.ofNat 3 (entries.getD 4 0), BitVec.ofNat 3 (entries.getD 5 0),
     BitVec.ofNat 3 (entries.getD 6 0), BitVec.ofNat 3 (entries.getD 7 0)]

/-- Why an instance is not built (R109). These are refusals before the engine exists, not exceptions
of the running engine. -/
inductive BuildRefusal where
  /-- `ROUNDS = 0` is no configuration of this hardware (R10). Raised at construction; safe. -/
  | zeroRounds
  /-- The alternate table has not eight entries (R13). Raised at construction; safe. -/
  | notEightEntries
  /-- An entry of the alternate table is not in 0..7 (R13). Raised at construction; safe. -/
  | entryOutOfRange
  /-- Two entries of the alternate table are equal (R13). Raised at construction; safe. -/
  | notDistinct
deriving DecidableEq, Repr

/-- Construction of an instance from a round count and a forward table (R9, R10, R13, R109, R124).
The refusals' names and their order are log entry 17. After the checks of R13 the last test, the
defining equation of `SBOX_INV` (R12), always holds (lemma `buildInstance_ok`). -/
def buildInstance (rounds : Nat) (entries : List Nat) : Except BuildRefusal Instance :=
  if !roundsOk rounds then .error .zeroRounds
  else if !tableLengthOk entries then .error .notEightEntries
  else if !tableRangeOk entries then .error .entryOutOfRange
  else if !tableDistinctOk entries then .error .notDistinct
  else
    let fwd := tableOf entries
    let inv := invertTable fwd
    if h : constantsOk rounds fwd inv = true then .ok ⟨rounds, fwd, inv, h⟩
    else .error .notDistinct

/-- The instance of `State.reset`: `ROUNDS` of the source's example (log entry 2) and the table of
R11 with its inverse (R12). -/
def defaultInstance : Instance :=
  ⟨Config.resetRounds, defaultFwd, invertTable defaultFwd, by decide⟩

end Sys2Proof.Machine
end

