-- ==== Sys2Proof/Machine/State.lean ====
section
/-! DEFINITION. The state of the engine as plain data (10_state.md R17 to R35), the reasons a step can
stop, and the state after reset. -/

namespace Sys2Proof.Machine

/-- `RUN`, the engine's run state (R24). -/
inductive RunState where
  /-- Reset has happened and no command has been accepted since. -/
  | idle
  /-- A command has been accepted and not all its micro-operations have been performed. -/
  | busy
  /-- The last micro-operation has been performed and `BLOCK` holds the result. -/
  | done
deriving DecidableEq, Repr

/-- `PHASE`, the step within a round: 0, 1 or 2 (R23). The value 3 of the 2-bit register is never
reached and is left out of the type (log entry 15). -/
inductive Phase where
  | p0
  | p1
  | p2
deriving DecidableEq, Repr

/-- `PHASE` as the number the spec writes. -/
def Phase.toNat : Phase → Nat
  | .p0 => 0
  | .p1 => 1
  | .p2 => 2

/-- The engine raises no exception, trap or fault: the list of causes is empty (60_exceptions.md R107,
R108). So this type has no constructor. -/
inductive Fault where
deriving DecidableEq, Repr

/-- Why a step has no meaning. -/
inductive Refusal where
  /-- An operation without a meaning. Raised by no arm of `exec`: every operation is modelled. Safe. -/
  | notModelled (mnemonic : String)
  /-- The sequencer stands, while `RUN = BUSY`, at a round index of `ROUNDS` or more, for which the
  transition tables have no row (R81, R90). Raised by the engine's step, in states no run reaches only
  (R23: RIDX never passes `ROUNDS - 1`). Safe. Log entry 9. -/
  | sequencerOutsideTable
deriving DecidableEq, Repr

/-- The state of one engine instance and of its input ports. -/
structure State where
  /-- The constants of the instance; nothing writes them (R18). Log entry 1. -/
  inst : Instance
  /-- `BLOCK`, the working block (R19). -/
  block : Block
  /-- `KEYR`, the key of the command in progress (R20). -/
  keyr : Key
  /-- `DIR`: 0 encode, 1 decode (R22). -/
  dir : BitVec 1
  /-- `RIDX`, the round index of `SEQ` (R23). Log entry 15. -/
  ridx : Nat
  /-- `PHASE`, the step within the round of `SEQ` (R23). -/
  phase : Phase
  /-- `RUN`, the run state (R24). -/
  run : RunState
  /-- Port `reset`: a RESET event is presented (R31, R122). Log entry 6. -/
  resetPort : Bool
  /-- Port `start`: a START is presented (R31, R125). Log entry 6. -/
  startPort : Bool
  /-- Port `cmd`, the command code (R31, R53). -/
  cmdPort : BitVec 1
  /-- Port `din`, the input block (R31). -/
  dinPort : Block
  /-- Port `key` (R31). -/
  keyPort : Key
  /-- THE MODEL'S OWN: how many free values have been drawn. Log entry 16. -/
  freeCount : Nat
deriving DecidableEq, Repr

/-- The machine of an instance right after RESET (R35, R122): `RUN = IDLE`, `DIR = 0`,
`SEQ = (0, 0)`; `BLOCK`, `KEYR` and the ports at the values of log entries 3 and 6. -/
def State.resetOf (inst : Instance) : State where
  inst := inst
  block := Config.resetBlock
  keyr := Config.resetKey
  dir := 0
  ridx := 0
  phase := .p0
  run := .idle
  resetPort := false
  startPort := false
  cmdPort := 0
  dinPort := Config.resetDin
  keyPort := Config.resetKeyPort
  freeCount := 0

/-- The machine right after reset (R35, R122), of the instance that log entry 2 names. -/
def State.reset : State := State.resetOf defaultInstance

end Sys2Proof.Machine
end

