-- ==== Sys2Proof/Machine/Flags.lean ====
section
/-! DEFINITION. The status outputs and predicates (10_state.md R24, R26, R31). The engine has no condition
codes, so no operation computes a flag (R25). -/

namespace Sys2Proof.Machine

/-- Output `busy`: 1 exactly when `RUN = BUSY` (R24, R31). -/
def State.busy (s : State) : Bool := s.run == .busy

/-- Output `done`: 1 exactly when `RUN = DONE` (R24, R31). -/
def State.done (s : State) : Bool := s.run == .done

/-- Output `dout`, which the host reads: `BLOCK` exactly while `done = 1`, and otherwise no value
(R31, R129; log entry 12). Reading changes nothing. -/
def State.dout (s : State) : Option Block := if s.done then some s.block else none

/-- A run is at rest when `RUN = IDLE` or `RUN = DONE` (R130). -/
def State.atRest (s : State) : Bool := s.run != .busy

/-- The predicate `first`: the first round (R26). -/
def firstRound (r : Nat) : Bool := r == 0

/-- The predicate `last`: the last round, `RIDX = ROUNDS - 1` (R26). -/
def lastRound (rounds r : Nat) : Bool := r + 1 == rounds

end Sys2Proof.Machine
end

