-- ==== Sys2Proof/Machine/Operands.lean ====
section
/-! DEFINITION. The operand forms: the implicit operands of the operations (30_encoding.md R55), the
groups of a block and its single bits (40_bit_utilities.md R62 to R65), and the numbers a host
presents (10_state.md R32). -/

namespace Sys2Proof.Machine

/-- The implicit source `BLOCK` of every micro-operation (R21, R55). -/
def State.blockOperand (s : State) : Block := s.block

/-- The implicit second source `KEYR`, of KMIX only (R20, R55). -/
def State.keyOperand (s : State) : Key := s.keyr

/-- The implicit destination `BLOCK` of every micro-operation (R21, R55). -/
def State.writeBlock (s : State) (b : Block) : State := { s with block := b }

/-- `lo(b) = b[2:0]`, the low group (R64). -/
def lo (b : Block) : Group := b.extractLsb' 0 3

/-- `mid(b) = b[5:3]`, the middle group (R64). -/
def mid (b : Block) : Group := b.extractLsb' 3 3

/-- `hi(b) = b[8:6]`, the high group (R64). -/
def hi (b : Block) : Group := b.extractLsb' 6 3

/-- Reassembly `{h, m, l}`, the first group the most significant (R16, R64). -/
def join (h m l : Group) : Block := h ++ m ++ l

/-- `get_bit(block, position)`: the bit at a position counted from 1 at the most significant end;
a position outside 1..9 is refused (R62). -/
def getBit (b : Block) (p : Nat) : Option (BitVec 1) :=
  if positionOk p then some (BitVec.ofBool (b.getLsbD (9 - p))) else none

/-- `mask9(x) = x mod 512`, the mask a host applies to a block kept in a wider integer (R16, R42). -/
def mask9 (x : Nat) : Nat := x % 512

/-- Why a host's number is no block or key. -/
inductive PortRefusal where
  /-- The number is 512 or more: it cannot be presented on a 9-bit port, and it is not masked (R32).
  Raised by `portWord`; safe. -/
  | outOfRange (n : Nat)
deriving DecidableEq, Repr

/-- A host's number as the value of a 9-bit port (R32). -/
def portWord (n : Nat) : Except PortRefusal Word :=
  if portValueOk n then .ok (BitVec.ofNat 9 n) else .error (.outOfRange n)

end Sys2Proof.Machine
end

