-- ==== Sys2Proof/Machine/Ops.lean ====
section
/-! DEFINITION. The shared operations: the table read (20_memory.md R37), the three transforms
(41_key_mixer.md, 42_substitution.md, 43_permutation.md), and what RESET, START and completion do to
the state (70_reset_and_hazards.md R122, R125, R128).

Taking an exception and returning from one have no operation here: the engine has no exception, trap
entry or trap return (60_exceptions.md R107, R113, R114). -/

namespace Sys2Proof.Machine

/-- The two address spaces of the engine (10_state.md R29). -/
inductive Space where
  /-- `SBOX_FWD`, read by SUBF only. -/
  | fwd
  /-- `SBOX_INV`, read by SUBI only. -/
  | inv
deriving DecidableEq, Repr

/-- The table of an address space (R29). -/
def Space.table (sp : Space) (k : Instance) : Table :=
  match sp with
  | .fwd => k.sboxFwd
  | .inv => k.sboxInv

/-- `MemRead(T, a)`, the one memory read primitive: total and without side effect (R37, R44). -/
def memRead (k : Instance) (sp : Space) (a : Group) : Group := Table.read (sp.table k) a

/-- The address space that `substitute` reads: the forward table if `inverse` is false and the inverse
table if it is true (R69). -/
def spaceOf (inverse : Bool) : Space := if inverse then .inv else .fwd

/-- `substitute(block, inverse)`: the same table for the three groups, each kept in its place (R69). -/
def substitute (k : Instance) (b : Block) (inverse : Bool) : Block :=
  join (memRead k (spaceOf inverse) (hi b)) (memRead k (spaceOf inverse) (mid b))
    (memRead k (spaceOf inverse) (lo b))

/-- A block with one bit of value `v` at index `j` and zeros elsewhere. -/
def bitAt (j : Nat) (v : Bool) : Block := (BitVec.ofBool v).setWidth 9 <<< j

/-- `permute(block)`, in the spec's scatter form: from `r = 0`, bit `PBOX(i)` of `r` takes bit `i` of
the block for `i` in 0..8 (R75, R78). -/
def permute (b : Block) : Block :=
  (List.range 9).foldl (fun r i => r ||| bitAt (pbox i) (b.getLsbD i)) 0

/-- The XOR of block and key (R66). -/
def keyMix (b : Block) (k : Key) : Block := b ^^^ k

/-- What a RESET event does (R122): the control state as R35 lists it, and `BLOCK` and `KEYR` lose
their values, which are free from then on (log entry 4). The instance is not affected. -/
def resetEngine (s : State) : State :=
  { s with
    run := .idle, dir := 0, ridx := 0, phase := .p0
    block := Config.lostWord s.freeCount
    keyr := Config.lostWord (s.freeCount + 1)
    freeCount := s.freeCount + 2 }

/-- What a START with the command code `d` does (R125, R126): accepted when `RUN` is not `BUSY`, it
samples `din` and `key`; under `BUSY` it changes no register. -/
def startCommand (d : BitVec 1) (s : State) : State :=
  if s.busy then s
  else
    { s with
      dir := d, block := s.dinPort, keyr := s.keyPort
      ridx := 0, phase := .p0, run := .busy }

/-- Where a transition table sends the sequencer (R81, R90). -/
inductive Next where
  /-- The next position `(r, ph)`. -/
  | goto (r : Nat) (ph : Phase)
  /-- The command is complete. -/
  | complete
deriving DecidableEq, Repr

/-- What the sequencer does after a micro-operation (R82, R91): it goes to the next position, or, on
completion, `RUN <- DONE` with `SEQ` left where it is and `KEYR` without a value from then on (R20,
R128; log entry 5). -/
def advance (nxt : Next) (s : State) : State :=
  match nxt with
  | .goto r ph => { s with ridx := r, phase := ph }
  | .complete =>
    { s with run := .done, keyr := Config.lostWord s.freeCount, freeCount := s.freeCount + 1 }

end Sys2Proof.Machine
end

