-- ==== Sys2Proof/Machine/Command.lean ====
section
/-! DEFINITION. The meanings of the two commands (format C), and the whole-operation functions
`ENC(p, k)` and `DEC(c, k)` they compute (44_encode.md R80, 45_decode.md R89).

A command's own effect is its START (70_reset_and_hazards.md R125); the sequencer then performs its
`3 * ROUNDS` micro-operations, one a step (R82, R91; log entry 14). -/

namespace Sys2Proof.Machine

/-- ENC: a START with `cmd = 0` (R53, R80, R125, R126). -/
def execEnc (s : State) : Host.Outcome State Fault Refusal :=
  .next (startCommand 0#1 s)

/-- DEC: a START with `cmd = 1` (R53, R89, R125, R126). -/
def execDec (s : State) : Host.Outcome State Fault Refusal :=
  .next (startCommand 1#1 s)

/-- One round of the loop of R80, at round index `r`. -/
def encRound (i : Instance) (k : Key) (b : Block) (r : Nat) : Block :=
  let b := keyMix b k
  let b := substitute i b false
  if lastRound i.rounds r then keyMix b k else permute b

/-- `ENC(p, k)` (R80). -/
def encFun (i : Instance) (p : Block) (k : Key) : Block :=
  (List.range i.rounds).foldl (encRound i k) p

/-- One round of the loop of R89, at round index `r`. -/
def decRound (i : Instance) (k : Key) (b : Block) (r : Nat) : Block :=
  let b := if firstRound r then keyMix b k else permute b
  let b := substitute i b true
  keyMix b k

/-- `DEC(c, k)` (R89). -/
def decFun (i : Instance) (c : Block) (k : Key) : Block :=
  (List.range i.rounds).foldl (decRound i k) c

/-- The function of the command that `DIR` names (R22). -/
def cipherFun (i : Instance) (dir : BitVec 1) (b : Block) (k : Key) : Block :=
  if dir = 0 then encFun i b k else decFun i b k

end Sys2Proof.Machine
end

