-- ==== Sys2Proof/Machine/Micro.lean ====
section
/-! DEFINITION. The meanings of the four micro-operations (format U). Each reads `BLOCK`, KMIX also
`KEYR`, and each writes `BLOCK` and nothing else; none can fault (60_exceptions.md R108), and none reads
`RUN` (10_state.md R24; log entry 22). The sequencer's advance is the engine's step (Engine.lean). -/

namespace Sys2Proof.Machine

/-- KMIX: `BLOCK <- BLOCK xor KEYR` (R66). -/
def execKmix (s : State) : Host.Outcome State Fault Refusal :=
  .next (s.writeBlock (keyMix s.blockOperand s.keyOperand))

/-- PERM: `BLOCK <- permute(BLOCK)` (R76). -/
def execPerm (s : State) : Host.Outcome State Fault Refusal :=
  .next (s.writeBlock (permute s.blockOperand))

/-- SUBF: `BLOCK <- substitute(BLOCK, false)` (R70). -/
def execSubf (s : State) : Host.Outcome State Fault Refusal :=
  .next (s.writeBlock (substitute s.inst s.blockOperand false))

/-- SUBI: `BLOCK <- substitute(BLOCK, true)` (R71). -/
def execSubi (s : State) : Host.Outcome State Fault Refusal :=
  .next (s.writeBlock (substitute s.inst s.blockOperand true))

end Sys2Proof.Machine
end

