-- ==== Sys2Proof/Machine/Dispatch.lean ====
section
/-! DEFINITION. One arm per operation of the opcode table (30_encoding.md R56). -/

namespace Sys2Proof.Machine

def exec (i : Instr) (s : State) : Host.Outcome State Fault Refusal :=
  match i with
  | .enc => Sys2Proof.Machine.execEnc s
  | .dec => Sys2Proof.Machine.execDec s
  | .kmix => Sys2Proof.Machine.execKmix s
  | .perm => Sys2Proof.Machine.execPerm s
  | .subf => Sys2Proof.Machine.execSubf s
  | .subi => Sys2Proof.Machine.execSubi s

end Sys2Proof.Machine
end

