-- ==== Sys2Proof/Decode.lean ====
section
/-! DEFINITION. The codes of the two formats, their decoder and, after it, their encoder
(30_encoding.md R53 to R58). -/

namespace Sys2Proof

/-- A code of either format, at its exact width (R53, R54, R58). -/
inductive Code where
  /-- A command code of one bit (R53). -/
  | c (bits : BitVec 1)
  /-- A micro-operation code of two bits (R54). -/
  | u (bits : BitVec 2)
deriving DecidableEq, Repr

/-- Why a number is no code. -/
inductive DecodeError where
  /-- The number has bits above the format's width (R58: one fixed length). Raised by `decodeNat`;
  safe: such a word cannot be presented on the wires. -/
  | tooWide (f : Format) (w : Nat)
deriving DecidableEq, Repr

/-- Field `dir` of a command code, bit 0 (R53). -/
def dirField (b : BitVec 1) : Bool := b.getLsbD 0

/-- Field `sub` of a micro-operation code, bit 1 (R54). -/
def subField (b : BitVec 2) : Bool := b.getLsbD 1

/-- Field `sel` of a micro-operation code, bit 0 (R54). -/
def selField (b : BitVec 2) : Bool := b.getLsbD 0

/-- The command a format C code stands for (R53). -/
def decodeC (b : BitVec 1) : Instr :=
  match dirField b with
  | false => .enc
  | true => .dec

/-- The micro-operation a format U code stands for (R54). -/
def decodeU (b : BitVec 2) : Instr :=
  match subField b, selField b with
  | false, false => .kmix
  | false, true => .perm
  | true, false => .subf
  | true, true => .subi

/-- The decoder of either format: total, every code point assigned (R56, R57). -/
def decode : Code → Instr
  | .c b => decodeC b
  | .u b => decodeU b

/-- The decoder on any natural number, read as a code of the given format; a number with bits above
the format's width is refused by name. -/
def decodeNat (f : Format) (w : Nat) : Except DecodeError Instr :=
  if w < 2 ^ f.width then
    match f with
    | .C => .ok (decodeC (BitVec.ofNat 1 w))
    | .U => .ok (decodeU (BitVec.ofNat 2 w))
  else .error (.tooWide f w)

/-- The format in which a word of the opcode table is read. One bit is format C and two bits are
format U. At any other length the table does not say which format it is, and the words 0 and 1 are
codes of both: they are read as commands, the only codes that reach the engine from outside (R54:
the control word never appears on a port). DESIGN CHOICE, log entry 10. -/
def tableFormat (nbits w : Nat) : Format :=
  if nbits = 1 then .C
  else if nbits = 2 then .U
  else if w < 2 then .C
  else .U

/-- The instruction the decoder reads from a word of the opcode table. -/
def decodeTableWord (nbits w : Nat) : Option Instr :=
  match decodeNat (tableFormat nbits w) w with
  | .ok i => some i
  | .error _ => none

/-- The encoder: the code of each operation, from the opcode map (R56). -/
def encode : Instr → Code
  | .enc => .c 0b0#1
  | .dec => .c 0b1#1
  | .kmix => .u 0b00#2
  | .perm => .u 0b01#2
  | .subf => .u 0b10#2
  | .subi => .u 0b11#2

/-- The format of a code. -/
def Code.format : Code → Format
  | .c _ => .C
  | .u _ => .U

/-- A code as a number, bit 0 the least significant. -/
def Code.toNat : Code → Nat
  | .c b => b.toNat
  | .u b => b.toNat

end Sys2Proof
end

