-- ==== Sys2Proof/Machine/Sequencer.lean ====
section
/-! DEFINITION. The two transition tables `ENCODE_ROUND` and `DECODE_ROUND` (44_encode.md R81,
45_decode.md R90), kept as two tables (10_state.md R22), and the sequence of micro-operations of a
command read off them. -/

namespace Sys2Proof.Machine

/-- `ENCODE_ROUND`: the micro-operation at a position and the next position (R81). It reads the round
index and `ROUNDS` only. No row exists for a round index of `ROUNDS` or more. -/
def encodeRound (rounds r : Nat) (ph : Phase) : Option (Instr × Next) :=
  if r < rounds then
    match ph with
    | .p0 => some (.kmix, .goto r .p1)
    | .p1 => some (.subf, .goto r .p2)
    | .p2 => if lastRound rounds r then some (.kmix, .complete)
             else some (.perm, .goto (r + 1) .p0)
  else none

/-- `DECODE_ROUND`: the micro-operation at a position and the next position (R90). It reads the round
index and `ROUNDS` only. No row exists for a round index of `ROUNDS` or more. -/
def decodeRound (rounds r : Nat) (ph : Phase) : Option (Instr × Next) :=
  if r < rounds then
    match ph with
    | .p0 => if firstRound r then some (.kmix, .goto r .p1)
             else some (.perm, .goto r .p1)
    | .p1 => some (.subi, .goto r .p2)
    | .p2 => if lastRound rounds r then some (.kmix, .complete)
             else some (.kmix, .goto (r + 1) .p0)
  else none

/-- The table that `DIR` selects (R22). -/
def roundTable (dir : BitVec 1) (rounds r : Nat) (ph : Phase) : Option (Instr × Next) :=
  if dir = 0 then encodeRound rounds r ph else decodeRound rounds r ph

/-- The row at the sequencer's position. -/
def State.row (s : State) : Option (Instr × Next) :=
  roundTable s.dir s.inst.rounds s.ridx s.phase

/-- The micro-operations a table issues from a position on, at most `fuel` of them. -/
def opsFrom (dir : BitVec 1) (rounds : Nat) : Nat → Nat → Phase → List Instr
  | 0, _, _ => []
  | fuel + 1, r, ph =>
    match roundTable dir rounds r ph with
    | none => []
    | some (op, .complete) => [op]
    | some (op, .goto r' ph') => op :: opsFrom dir rounds fuel r' ph'

/-- The micro-operations of a whole command in order (R84, R93): read off the table from `(0, 0)` on,
with room for one step more than the `3 * ROUNDS` the command takes. -/
def commandOps (dir : BitVec 1) (rounds : Nat) : List Instr :=
  opsFrom dir rounds (3 * rounds + 1) 0 .p0

/-- The micro-operation that undoes another (R67, R72, R77); a command is left as it is. -/
def undoes : Instr → Instr
  | .kmix => .kmix
  | .perm => .perm
  | .subf => .subi
  | .subi => .subf
  | .enc => .enc
  | .dec => .dec

end Sys2Proof.Machine
end

