-- ==== Sys2Proof/Machine/Engine.lean ====
section
/-! DEFINITION. What one step does: a host event if one is presented, else the sequencer's
micro-operation, else nothing (10_state.md R17; 70_reset_and_hazards.md R122, R125, R130), and how an
operation is placed where the next step finds it. -/

namespace Sys2Proof.Machine

/-- The host's requests lowered: the step that takes an event lowers it, and an ignored START is not
remembered (R126; log entry 6). -/
def lowerRequests (s : State) : State := { s with resetPort := false, startPort := false }

/-- The command code on the port, decoded (R53). -/
def State.portInstr (s : State) : Instr := decode (.c s.cmdPort)

/-- A step of the host event START: the command on the port runs (R125, R126). -/
def startStep (s : State) : Host.Outcome State Fault Refusal :=
  exec s.portInstr (lowerRequests s)

/-- A step of the host event RESET (R122): it also takes a START presented with it. -/
def resetStep (s : State) : Host.Outcome State Fault Refusal :=
  .next (resetEngine (lowerRequests s))

/-- The sequencer's advance after a micro-operation that has answered. -/
def advanceAfter (nxt : Next) (o : Host.Outcome State Fault Refusal) :
    Host.Outcome State Fault Refusal :=
  match o with
  | .next t => .next (advance nxt t)
  | .fault f => .fault f
  | .refused r => .refused r

/-- One engine step while `RUN = BUSY` (R82, R91): the sequencer sends the control word of the row at its
position to the datapath, which decodes and runs it (R54), and goes on. -/
def engineStep (s : State) : Host.Outcome State Fault Refusal :=
  match s.row with
  | none => .refused .sequencerOutsideTable
  | some (op, nxt) => advanceAfter nxt (exec (decode (encode op)) s)

/-- One step. RESET takes precedence over a START presented with it and over the sequencer's own step
(R122); a START presented is taken as an event of its own (log entry 7); an engine at rest does nothing
(R121). -/
def cycle (s : State) : Host.Outcome State Fault Refusal :=
  if s.resetPort then resetStep s
  else if s.startPort then startStep s
  else if s.busy then engineStep s
  else .next s

/-- The state with a command presented on the ports and the engine ready to accept it (R125). -/
def placeCommand (d : BitVec 1) (s : State) : State :=
  { s with
    resetPort := false, startPort := true, cmdPort := d
    run := if s.busy then .idle else s.run }

/-- The state with the sequencer, under `BUSY`, at the given position of the table of `d`. -/
def placePosition (d : BitVec 1) (ph : Phase) (s : State) : State :=
  { s with
    resetPort := false, startPort := false
    run := .busy, dir := d, ridx := 0, phase := ph }

/-- The state whose next step runs the given operation: a command stands on the ports, a
micro-operation at a position of the sequencer that issues it. PERM is issued in the first round of an
encode when `ROUNDS` is at least 2, and nowhere when `ROUNDS = 1` (R85). Log entry 11. -/
def placeInstr (i : Instr) (s : State) : State :=
  match i with
  | .enc => placeCommand 0#1 s
  | .dec => placeCommand 1#1 s
  | .kmix => placePosition 0#1 .p0 s
  | .subf => placePosition 0#1 .p1 s
  | .perm => placePosition 0#1 .p2 s
  | .subi => placePosition 1#1 .p1 s

/-- The state whose next step runs the operation of a word of the opcode table; a word that is no code
changes nothing. -/
def placeWord (nbits w : Nat) (s : State) : State :=
  match decodeTableWord nbits w with
  | some i => placeInstr i s
  | none => s

end Sys2Proof.Machine
end

