-- ==== Sys2Proof/Machine/HostSoftware.lean ====
section
/-! DEFINITION. The host software of 46_host_software.md, as pure functions over the engine's functions.
None of it is part of the engine (00_scope.md R5); random draws and the collector's constants are
arguments (R102, R106; log entry 21). -/

namespace Sys2Proof.Machine

/-- A call of the engine from software: two numbers in, a number out; a number of 512 or more is refused
and not masked (R32, R98). -/
def hostCall (i : Instance) (dir : BitVec 1) (b k : Nat) : Except PortRefusal Nat :=
  match portWord b with
  | .error e => .error e
  | .ok b' =>
    match portWord k with
    | .error e => .error e
    | .ok k' => .ok (cipherFun i dir b' k').toNat

/-- `parity(x)` of a group: the population count modulo 2 (R16, R99). -/
def parityGroup (x : Group) : Bool := x.getLsbD 0 ^^ x.getLsbD 1 ^^ x.getLsbD 2

/-- `bias(S)[i][j]`: of the eight inputs `v`, how many have `parity(v and i) = parity(S[v] and j)` (R99). -/
def bias (t : Table) (i j : Group) : Nat :=
  groups.countP fun v => parityGroup (v &&& i) == parityGroup (Table.read t v &&& j)

/-- The nonzero masks 1..7 (R99). -/
def masks : List Group := groups.tail

/-- The bias table: one row for each input mask, one entry for each output mask, both over 1..7 (R99). -/
def biasTable (t : Table) : List (List Nat) := masks.map fun i => masks.map fun j => bias t i j

/-- A linear approximation: an XOR of bits of the plaintext and of the ciphertext, each named by its
`get_bit` position (R63, R101). -/
structure Approximation where
  plain : List Nat
  cipher : List Nat
deriving DecidableEq, Repr

/-- The XOR of the bits of a block at the given positions; refused if a position is outside 1..9 (R62). -/
def xorBits (b : Block) : List Nat → Option (BitVec 1)
  | [] => some 0
  | p :: ps =>
    match getBit b p, xorBits b ps with
    | some x, some y => some (x ^^^ y)
    | _, _ => none

/-- The value of an approximation on a pair (R101). -/
def Approximation.value (a : Approximation) (pc : Block × Block) : Option (BitVec 1) :=
  match xorBits pc.1 a.plain, xorBits pc.2 a.cipher with
  | some x, some y => some (x ^^^ y)
  | _, _ => none

/-- What the collector gives back (R101). -/
structure Statistics where
  pairs : List (Block × Block)
  counts : List Nat
deriving DecidableEq, Repr

/-- Every position an approximation names is one of 1..9 (R62). -/
def approximationOk (a : Approximation) : Bool := (a.plain ++ a.cipher).all positionOk

/-- The linear statistics collector on the drawn plaintexts: the pairs under a fixed key and, for each
approximation, how often it evaluates to 1 (R101). Refused if an approximation names a position outside
1..9, which `get_bit` refuses (R62). -/
def collect (i : Instance) (k : Key) (approx : List Approximation) (plaintexts : List Block) :
    Option Statistics :=
  if approx.all approximationOk then
    let pairs := plaintexts.map fun p => (p, encFun i p k)
    some
      { pairs := pairs
        counts := approx.map fun a => pairs.countP fun pc => a.value pc == some 1 }
  else none

/-- An accumulated count as an observed frequency, `count / N` (R101). When no sample was drawn (`N = 0`)
the spec states no value and the result is a free value (DESIGN CHOICE, log entry 23). -/
def frequency (st : Statistics) (count : Nat) : Rat :=
  if st.pairs.isEmpty then Config.frequencyOfNoSample
  else (count : Rat) / (st.pairs.length : Rat)

/-- How key recovery fails. -/
inductive SearchFailure where
  /-- No candidate reproduces every pair (R104). An outcome of host software, no fault of the engine. -/
  | keyNotFound
  /-- The sequence of pairs is empty, which the contract of `search_key` excludes (R103; log entry 18).
  Safe. -/
  | noPairs
deriving DecidableEq, Repr

/-- Whether a candidate reproduces every pair (R103). -/
def reproduces (i : Instance) (k : Key) (pairs : List (Block × Block)) : Bool :=
  pairs.all fun pc => encFun i pc.1 k == pc.2

/-- `search_key(candidates, pairs)`: the first candidate that reproduces every pair (R103, R104, R105). -/
def searchKey (i : Instance) (candidates : List Key) (pairs : List (Block × Block)) :
    Except SearchFailure Key :=
  if pairs.isEmpty then .error .noPairs
  else
    match candidates.find? fun k => reproduces i k pairs with
    | some k => .ok k
    | none => .error .keyNotFound

end Sys2Proof.Machine
end

