-- ==== Sys2Proof/Machine/Ports.lean ====
section
/-! DEFINITION. The host's moves (70_reset_and_hazards.md R137) and a run as a finite sequence of host
events and engine steps (R130). -/

namespace Sys2Proof.Machine

/-- What can happen next in a run (R17, R130). Reading the result is no entry: it changes nothing
(R129) and is the function `State.dout`. -/
inductive Action where
  /-- The host presents RESET (R122). -/
  | reset
  /-- The host presents START with a command code, a block and a key (R125). -/
  | start (cmd : BitVec 1) (din : Block) (key : Key)
  /-- The host changes the levels of `cmd`, `din` and `key` and requests nothing (R127). -/
  | drive (cmd : BitVec 1) (din : Block) (key : Key)
  /-- No host event: the engine steps if it is `BUSY` (R82, R91, R121). -/
  | engine
deriving DecidableEq, Repr

/-- The ports with the given levels of `cmd`, `din` and `key`. -/
def drivePorts (cmd : BitVec 1) (din : Block) (key : Key) (s : State) : State :=
  { s with cmdPort := cmd, dinPort := din, keyPort := key }

/-- One action: the host's part on the ports, and the step that takes it. -/
def act (a : Action) (s : State) : Host.Outcome State Fault Refusal :=
  match a with
  | .reset => step { s with resetPort := true }
  | .start cmd din key => step { drivePorts cmd din key s with startPort := true }
  | .drive cmd din key => .next (drivePorts cmd din key s)
  | .engine => step s

/-- A run: the actions one after another, stopping at the first that does not answer a next state. -/
def runActions : List Action → State → Host.Outcome State Fault Refusal
  | [], s => .next s
  | a :: rest, s =>
    match act a s with
    | .next t => runActions rest t
    | .fault f => .fault f
    | .refused r => .refused r

/-- `n` steps of the machine, with no host event between them but what stands on the ports at the start. -/
def steps : Nat → State → Host.Outcome State Fault Refusal
  | 0, s => .next s
  | n + 1, s =>
    match step s with
    | .next t => steps n t
    | .fault f => .fault f
    | .refused r => .refused r

end Sys2Proof.Machine
end

