-- ==== Sys2Proof/Safety.lean ====
section
/-! DEFINITION. What holds in every state of a run (10_state.md R24, R33; 70_reset_and_hazards.md R122,
R128): what a run that goes well keeps. -/

namespace Sys2Proof.Machine

/-- The invariant of the control state. `IDLE`: `DIR = 0` and `SEQ = (0, 0)` (R122). `BUSY`: `RIDX` is in
`0 .. ROUNDS - 1` (R23, R33). `DONE`: `SEQ` is left at `(ROUNDS - 1, 2)` (R128). -/
def ControlInv (s : State) : Prop :=
  (s.run = .idle → s.dir = 0 ∧ s.ridx = 0 ∧ s.phase = .p0) ∧
  (s.run = .busy → s.ridx < s.inst.rounds) ∧
  (s.run = .done → s.ridx + 1 = s.inst.rounds ∧ s.phase = .p2)

/-- No request of the host is pending. -/
def Quiet (s : State) : Prop := s.resetPort = false ∧ s.startPort = false

end Sys2Proof.Machine
end

