-- ==== Sys2Proof/Certificates/Slice0/Obligations.lean ====
section
/-! DEFINITION. The statements about the model, for the provers. Rules are those of spec/. A rule that the
spec itself marks as derived is not cited as a rule: its statement rests on the sections named. -/

open Sys2Proof Sys2Proof.Machine

/-! ## The step and the operation it runs -/

/-- A START presented without a RESET: the step is the meaning of the command whose code stands on the port
(R53), run after the host's requests have been lowered. -/
def Obligations.StepRunsThePresentedCommand : Prop :=
  ∀ (s : State) (i : Instr), s.resetPort = false → s.startPort = true → decode (.c s.cmdPort) = i →
    step s = exec i { s with resetPort := false, startPort := false }

/-- Under `BUSY`, with no host event: the step is the meaning of the micro-operation whose control word the
sequencer sends (R54), followed by the sequencer's advance to the next position or by completion. What
`KEYR` holds after completion is not said (R20). -/
def Obligations.StepRunsTheIssuedMicroOperation : Prop :=
  ∀ (s : State) (op i : Instr) (nxt : Next), s.resetPort = false → s.startPort = false → s.run = .busy →
    roundTable s.dir s.inst.rounds s.ridx s.phase = some (op, nxt) → decode (encode op) = i →
    i = op ∧ ∃ t u, exec i s = .next t ∧ step s = .next u ∧
      match nxt with
      | .goto r ph => u = { t with ridx := r, phase := ph }
      | .complete => u = { t with run := .done, keyr := u.keyr, freeCount := u.freeCount }

/-- R81, R82: the four rows of `ENCODE_ROUND`, each as one step of the whole machine. -/
def Obligations.EncodeStepsFollowTheTable : Prop :=
  ∀ s : State, s.resetPort = false → s.startPort = false → s.run = .busy → s.dir = 0 →
    s.ridx < s.inst.rounds →
    (s.phase = .p0 → step s = .next { s with block := keyMix s.block s.keyr, phase := .p1 }) ∧
    (s.phase = .p1 → step s = .next { s with block := substitute s.inst s.block false, phase := .p2 }) ∧
    (s.phase = .p2 → s.ridx < s.inst.rounds - 1 →
      step s = .next { s with block := permute s.block, ridx := s.ridx + 1, phase := .p0 }) ∧
    (s.phase = .p2 → s.ridx = s.inst.rounds - 1 → ∃ t, step s = .next t ∧
      t = { s with block := keyMix s.block s.keyr, run := .done, keyr := t.keyr, freeCount := t.freeCount })

/-- R90, R91: the five rows of `DECODE_ROUND`, each as one step of the whole machine. -/
def Obligations.DecodeStepsFollowTheTable : Prop :=
  ∀ s : State, s.resetPort = false → s.startPort = false → s.run = .busy → s.dir = 1 →
    s.ridx < s.inst.rounds →
    (s.phase = .p0 → s.ridx = 0 →
      step s = .next { s with block := keyMix s.block s.keyr, phase := .p1 }) ∧
    (s.phase = .p0 → 0 < s.ridx → step s = .next { s with block := permute s.block, phase := .p1 }) ∧
    (s.phase = .p1 → step s = .next { s with block := substitute s.inst s.block true, phase := .p2 }) ∧
    (s.phase = .p2 → s.ridx < s.inst.rounds - 1 →
      step s = .next { s with block := keyMix s.block s.keyr, ridx := s.ridx + 1, phase := .p0 }) ∧
    (s.phase = .p2 → s.ridx = s.inst.rounds - 1 → ∃ t, step s = .next t ∧
      t = { s with block := keyMix s.block s.keyr, run := .done, keyr := t.keyr, freeCount := t.freeCount })

/-! ## The micro-operations: result, frame and completion -/

/-- R66: KMIX answers the state with `BLOCK xor KEYR`, bit by bit, in `BLOCK` and everything else as it was; its
code is 00; and the corner cases the rule names. -/
def Obligations.KmixXorsTheKeyIntoTheBlock : Prop :=
  encode .kmix = .u 0b00#2 ∧
  (∀ s : State, ∃ t, exec .kmix s = .next t ∧ t = { s with block := t.block } ∧
    (∀ i, i < 9 → t.block.getLsbD i = (s.block.getLsbD i ^^ s.keyr.getLsbD i)) ∧
    (s.keyr = 0 → t.block = s.block) ∧
    (s.keyr = 0b111111111#9 → t.block = ~~~s.block) ∧
    (s.block = s.keyr → t.block = 0) ∧
    (s.block = 0b010000001#9 → s.keyr = 0b011000101#9 → t.block = 0b001000100#9))

/-- R69, R70: SUBF answers the state whose `BLOCK` has each group replaced through `SBOX_FWD` in its place,
and everything else as it was; its code is 10; and, with the table of R11, the corner cases of R70. -/
def Obligations.SubfReplacesEachGroup : Prop :=
  encode .subf = .u 0b10#2 ∧
  (∀ s : State, ∃ t, exec .subf s = .next t ∧ t = { s with block := t.block } ∧
    t.block.toNat =
      64 * (Table.read s.inst.sboxFwd (s.block.extractLsb' 6 3)).toNat +
      8 * (Table.read s.inst.sboxFwd (s.block.extractLsb' 3 3)).toNat +
      (Table.read s.inst.sboxFwd (s.block.extractLsb' 0 3)).toNat ∧
    (s.inst.sboxFwd = #v[4, 0, 7, 3, 5, 1, 2, 6] →
      (s.block = 0 → t.block = 0b100100100#9) ∧
      (s.block = 0b111111111#9 → t.block = 0b110110110#9) ∧
      (t.block = s.block ↔ s.block = 0b011011011#9) ∧
      (s.block = 0b110000011#9 → t.block = 0b010100011#9)))

/-- R69, R71: SUBI answers the state whose `BLOCK` has each group replaced through `SBOX_INV` in its place,
and everything else as it was; its code is 11; and, with the table of R11, the corner cases of R71. The last
clause is the example that R71 itself marks as derived, from R72 and the example of R70. -/
def Obligations.SubiReplacesEachGroup : Prop :=
  encode .subi = .u 0b11#2 ∧
  (∀ s : State, ∃ t, exec .subi s = .next t ∧ t = { s with block := t.block } ∧
    t.block.toNat =
      64 * (Table.read s.inst.sboxInv (s.block.extractLsb' 6 3)).toNat +
      8 * (Table.read s.inst.sboxInv (s.block.extractLsb' 3 3)).toNat +
      (Table.read s.inst.sboxInv (s.block.extractLsb' 0 3)).toNat ∧
    (s.inst.sboxFwd = #v[4, 0, 7, 3, 5, 1, 2, 6] →
      (s.block = 0 → t.block = 0b001001001#9) ∧
      (s.block = 0b111111111#9 → t.block = 0b010010010#9) ∧
      (s.block = 0b011011011#9 → t.block = s.block) ∧
      (s.block = 0b010100011#9 → t.block = 0b110000011#9)))

/-- R75, R76: PERM answers the state whose `BLOCK` has bit `i` at position `(i mod 3) * 3 + (i div 3)`, and
everything else as it was; its code is 01. -/
def Obligations.PermMovesEachBit : Prop :=
  encode .perm = .u 0b01#2 ∧
  ∀ s : State, ∃ t, exec .perm s = .next t ∧ t = { s with block := t.block } ∧
    ∀ i, i < 9 → t.block.getLsbD ((i % 3) * 3 + i / 3) = s.block.getLsbD i

/-- The corner cases of R76: which blocks PERM leaves unchanged, how many they are, that the number of set
bits never changes, and the rule's examples. -/
def Obligations.PermCornerCases : Prop :=
  permute 0 = 0 ∧ permute 0b111111111#9 = 0b111111111#9 ∧
  (∀ b : Block, (List.range 9).countP (fun i => (permute b).getLsbD i) =
    (List.range 9).countP (fun i => b.getLsbD i)) ∧
  (∀ b : Block, permute b = b ↔
    b.getLsbD 1 = b.getLsbD 3 ∧ b.getLsbD 2 = b.getLsbD 6 ∧ b.getLsbD 5 = b.getLsbD 7) ∧
  (List.range 512).countP (fun n => permute (BitVec.ofNat 9 n) == BitVec.ofNat 9 n) = 64 ∧
  permute 0b000000111#9 = 0b001001001#9 ∧ permute 0b100010110#9 = 0b101011000#9

/-- The meaning of every operation answers a next state, in every state (R107: no exception, trap or
fault). -/
def Obligations.EveryOperationAnswersANextState : Prop :=
  ∀ (i : Instr) (s : State), ∃ t, exec i s = .next t

/-! ## The laws of the transforms -/

/-- KMIX with the same key is its own inverse (41_key_mixer.md, KMIX). -/
def Obligations.KeyMixUndoesItself : Prop :=
  ∀ (s t : State), exec .kmix s = .next t → exec .kmix t = .next s

/-- R72: for every instance the two directions of `substitute` undo each other; SUBI undoes SUBF and SUBF
undoes SUBI. -/
def Obligations.SubstitutionsUndoEachOther : Prop :=
  (∀ (k : Instance) (b : Block),
    substitute k (substitute k b false) true = b ∧ substitute k (substitute k b true) false = b) ∧
  (∀ s t : State, exec .subf s = .next t → exec .subi t = .next s) ∧
  (∀ s t : State, exec .subi s = .next t → exec .subf t = .next s)

/-- R77: the permutation is an involution, in blocks and in indexes. -/
def Obligations.PermuteIsAnInvolution : Prop :=
  (∀ b : Block, permute (permute b) = b) ∧ ∀ i, i < 9 → pbox (pbox i) = i

/-- R64: the groups as remainders and quotients, reassembly as a sum, and the two inverse to each other. -/
def Obligations.GroupsPartitionTheBlock : Prop :=
  (∀ b : Block, (lo b).toNat = b.toNat % 8 ∧ (mid b).toNat = b.toNat / 8 % 8 ∧
    (hi b).toNat = b.toNat / 64 ∧ join (hi b) (mid b) (lo b) = b) ∧
  ∀ h m l : Group, (join h m l).toNat = 64 * h.toNat + 8 * m.toNat + l.toNat

/-- R62: `get_bit` on the positions 1 to 9, and its refusal on every other position. -/
def Obligations.GetBitCountsFromTheMostSignificantBit : Prop :=
  ∀ (b : Block) (p : Nat),
    (1 ≤ p ∧ p ≤ 9 → ∃ v, getBit b p = some v ∧ v = BitVec.ofBool (b.getLsbD (9 - p)) ∧
      v.toNat = b.toNat / 2 ^ (9 - p) % 2) ∧
    (p < 1 ∨ 9 < p → getBit b p = none)

/-! ## The commands -/

/-- R125: an accepted START loads the five registers from the ports at once, and `busy` rises while `done`
falls; nothing else changes, the levels of the two request ports left aside. -/
def Obligations.AcceptedStartLoadsTheCommand : Prop :=
  ∀ s : State, s.resetPort = false → s.startPort = true → s.run = .idle ∨ s.run = .done →
    ∃ t, step s = .next t ∧ t.busy = true ∧ t.done = false ∧
      t = { s with dir := s.cmdPort, block := s.dinPort, keyr := s.keyPort, ridx := 0, phase := .p0,
                   run := .busy, resetPort := t.resetPort, startPort := t.startPort }

/-- R126: under `BUSY` neither command does anything: no register changes. -/
def Obligations.StartUnderBusyIsIgnored : Prop :=
  ∀ s : State, s.run = .busy → exec .enc s = .next s ∧ exec .dec s = .next s

/-- The model's own (log entries 6 and 7), after R126: a START that is ignored is taken by a step of its own,
which lowers the request and changes nothing else, so that it is not remembered. -/
def Obligations.IgnoredStartIsNotRemembered : Prop :=
  ∀ s : State, s.run = .busy → s.resetPort = false → s.startPort = true →
    step s = .next { s with startPort := false } ∧
    ∀ n, steps (n + 1) s = steps n { s with startPort := false }

/-- ENC completes (that its own effect is its START is log entry 14): from every state at rest its meaning
answers a next state from which `3 * ROUNDS` steps
lead to `DONE` with `ENC(din, key)` in `BLOCK` and on `dout`, and nothing else changed but the registers of
the command. What `KEYR` holds then is not said (R20). -/
def Obligations.EncodeCommandComputesEnc : Prop :=
  ∀ s : State, s.resetPort = false → s.startPort = false → s.run = .idle ∨ s.run = .done →
    ∃ t u, exec .enc s = .next t ∧
      t = { s with dir := 0, block := s.dinPort, keyr := s.keyPort, ridx := 0, phase := .p0, run := .busy } ∧
      steps (3 * s.inst.rounds) t = .next u ∧
      u.dout = some (encFun s.inst s.dinPort s.keyPort) ∧
      u = { s with block := encFun s.inst s.dinPort s.keyPort, dir := 0, ridx := s.inst.rounds - 1,
                   phase := .p2, run := .done, keyr := u.keyr, freeCount := u.freeCount }

/-- DEC completes (that its own effect is its START is log entry 14): from every state at rest its meaning
answers a next state from which `3 * ROUNDS` steps
lead to `DONE` with `DEC(din, key)` in `BLOCK` and on `dout`, and nothing else changed but the registers of
the command. What `KEYR` holds then is not said (R20). -/
def Obligations.DecodeCommandComputesDec : Prop :=
  ∀ s : State, s.resetPort = false → s.startPort = false → s.run = .idle ∨ s.run = .done →
    ∃ t u, exec .dec s = .next t ∧
      t = { s with dir := 1, block := s.dinPort, keyr := s.keyPort, ridx := 0, phase := .p0, run := .busy } ∧
      steps (3 * s.inst.rounds) t = .next u ∧
      u.dout = some (decFun s.inst s.dinPort s.keyPort) ∧
      u = { s with block := decFun s.inst s.dinPort s.keyPort, dir := 1, ridx := s.inst.rounds - 1,
                   phase := .p2, run := .done, keyr := u.keyr, freeCount := u.freeCount }

/-- Before its last step a command is still under way: after `n < 3 * ROUNDS` steps of either command the
engine is `BUSY` and not done, at round `n / 3` and phase `n mod 3`, with the sampled key and direction, and
`dout` has no value (log entry 12). -/
def Obligations.CommandIsBusyUntilItsLastStep : Prop :=
  ∀ (s : State) (i : Instr) (n : Nat), s.resetPort = false → s.startPort = false →
    s.run = .idle ∨ s.run = .done → i = .enc ∨ i = .dec → n < 3 * s.inst.rounds →
    ∃ t u, exec i s = .next t ∧ steps n t = .next u ∧ u.busy = true ∧ u.done = false ∧ u.dout = none ∧
      u.ridx = n / 3 ∧ u.phase.toNat = n % 3 ∧ u.keyr = s.keyPort ∧
      u.dir = (if i = .enc then 0 else 1)

/-- The micro-operations of ENC in order: `(KMIX, SUBF, PERM)` repeated `ROUNDS - 1` times, then
`KMIX, SUBF, KMIX` (44_encode.md, The state machine). -/
def Obligations.MicroOperationsOfEnc : Prop :=
  ∀ rounds, 1 ≤ rounds →
    commandOps 0 rounds =
      (List.replicate (rounds - 1) [Instr.kmix, .subf, .perm]).flatten ++ [.kmix, .subf, .kmix] ∧
    (commandOps 0 rounds).length = 3 * rounds ∧
    (commandOps 0 rounds).count .kmix = rounds + 1 ∧
    (commandOps 0 rounds).count .subf = rounds ∧ (commandOps 0 rounds).count .perm = rounds - 1

/-- The micro-operations of DEC in order: `KMIX, SUBI, KMIX`, then `(PERM, SUBI, KMIX)` repeated
`ROUNDS - 1` times (45_decode.md, The state machine). -/
def Obligations.MicroOperationsOfDec : Prop :=
  ∀ rounds, 1 ≤ rounds →
    commandOps 1 rounds =
      [Instr.kmix, .subi, .kmix] ++ (List.replicate (rounds - 1) [Instr.perm, .subi, .kmix]).flatten ∧
    (commandOps 1 rounds).length = 3 * rounds ∧
    (commandOps 1 rounds).count .kmix = rounds + 1 ∧
    (commandOps 1 rounds).count .subi = rounds ∧ (commandOps 1 rounds).count .perm = rounds - 1

/-- The decoder's sequence is the encoder's backwards, each micro-operation replaced by the one that undoes
it (45_decode.md, The inverse relation). -/
def Obligations.DecUndoesEncInReverse : Prop :=
  ∀ rounds, 1 ≤ rounds → commandOps 1 rounds = (commandOps 0 rounds).reverse.map undoes

/-- R94: `DEC(ENC(x, k), k) = x` for every block, every key, every round count and every table an instance can
have. -/
def Obligations.DecodeInvertsEncode : Prop :=
  ∀ (i : Instance) (x : Block) (k : Key), decFun i (encFun i x k) k = x

/-- `ENC(DEC(y, k), k) = y` (45_decode.md, The inverse relation). -/
def Obligations.EncodeInvertsDecode : Prop :=
  ∀ (i : Instance) (y : Block) (k : Key), encFun i (decFun i y k) k = y

/-- For every key both commands are bijections of the blocks (44_encode.md, Corner cases and laws;
45_decode.md, Corner cases). -/
def Obligations.CommandsAreBijections : Prop :=
  ∀ (i : Instance) (k : Key),
    Function.Bijective (fun x => encFun i x k) ∧ Function.Bijective (fun x => decFun i x k)

/-- With one round there is no permutation (44_encode.md, Corner cases and laws; 45_decode.md, Corner
cases). -/
def Obligations.OneRoundHasNoPermutation : Prop :=
  ∀ (i : Instance) (x : Block) (k : Key), i.rounds = 1 →
    encFun i x k = substitute i (x ^^^ k) false ^^^ k ∧
    decFun i x k = substitute i (x ^^^ k) true ^^^ k

/-- R94 on the machine: an ENC run to its end, its result presented to DEC with the same key and that run to
its end, give back the plaintext, whatever the instance and the state at rest it starts in. -/
def Obligations.MachineRoundTrip : Prop :=
  ∀ (s : State) (x : Block) (k : Key), s.resetPort = false → s.startPort = false →
    s.run = .idle ∨ s.run = .done →
    ∃ u c v, runActions (.start 0 x k :: List.replicate (3 * s.inst.rounds) .engine) s = .next u ∧
      u.dout = some c ∧
      runActions (.start 1 c k :: List.replicate (3 * s.inst.rounds) .engine) u = .next v ∧
      v.dout = some x

/-! ## The protocol -/

/-- R122: from any state, a START presented with it or not, RESET gives the control state the rule names and
leaves the instance. The levels of the two request ports are left aside. The second clause, that what comes
after does not depend on what `BLOCK` and `KEYR` held, is the model's choice: it rests on log entry 4, by
which they take free values. -/
def Obligations.ResetFromAnyState : Prop :=
  ∀ s : State, s.resetPort = true →
    (∃ t, step s = .next t ∧ t.busy = false ∧ t.done = false ∧
      t = { s with run := .idle, dir := 0, ridx := 0, phase := .p0, resetPort := t.resetPort,
                   startPort := t.startPort, block := t.block, keyr := t.keyr, freeCount := t.freeCount }) ∧
    ∀ (b : Block) (k : Key), step { s with block := b, keyr := k } = step s

/-- The control state, the outputs and the constants after reset, in the rows of the table of R35 that give a
value, of every instance (10_state.md, Reset values). What `BLOCK` and `KEYR` hold is not said (log entry 3);
that `dout` has no value is log entry 12. -/
def Obligations.StateAfterReset : Prop :=
  ∀ i : Instance, (State.resetOf i).dir = 0 ∧ (State.resetOf i).ridx = 0 ∧ (State.resetOf i).phase = .p0 ∧
    (State.resetOf i).run = .idle ∧ (State.resetOf i).busy = false ∧ (State.resetOf i).done = false ∧
    (State.resetOf i).dout = none ∧ (State.resetOf i).inst = i

/-- From ANY state whatever, one RESET, one START and `3 * ROUNDS` engine steps give the command's result
(70_reset_and_hazards.md, Boot requirements and Command protocol). -/
def Obligations.BootThenCommandGivesTheResult : Prop :=
  ∀ (s : State) (d : BitVec 1) (x : Block) (k : Key),
    ∃ u, runActions (.reset :: .start d x k :: List.replicate (3 * s.inst.rounds) .engine) s = .next u ∧
      u.inst = s.inst ∧ u.run = .done ∧
      u.dout = some (if d = 0 then encFun s.inst x k else decFun s.inst x k)

/-- The protocol over whole runs (70_reset_and_hazards.md, Command protocol; a START ignored is a step of its
own, log entry 7): between an accepted START and the command's last step, whatever STARTs the host
presents and whatever it drives on the ports, the result is that of the operands sampled at the START. -/
def Obligations.HostCannotDisturbACommand : Prop :=
  ∀ (s : State) (i : Instr) (as : List Action), s.resetPort = false → s.startPort = false →
    s.run = .idle ∨ s.run = .done → i = .enc ∨ i = .dec →
    Action.reset ∉ as → as.count .engine = 3 * s.inst.rounds → as.getLast? = some .engine →
    ∃ t u, exec i s = .next t ∧ runActions as t = .next u ∧ u.run = .done ∧
      u.dout = some (if i = .enc then encFun s.inst s.dinPort s.keyPort
                     else decFun s.inst s.dinPort s.keyPort)

/-- The clause of R33 on `KEYR` and `RIDX`, over whole runs: while the command is under way, whatever the host
does short of RESET, `KEYR` is the key sampled at its START and `RIDX` is below `ROUNDS`. -/
def Obligations.CommandKeepsItsKey : Prop :=
  ∀ (s : State) (i : Instr) (as : List Action), s.resetPort = false → s.startPort = false →
    s.run = .idle ∨ s.run = .done → i = .enc ∨ i = .dec →
    Action.reset ∉ as → as.count .engine < 3 * s.inst.rounds →
    ∃ t u, exec i s = .next t ∧ runActions as t = .next u ∧ u.run = .busy ∧ u.keyr = s.keyPort ∧
      u.ridx = as.count .engine / 3 ∧ u.ridx < s.inst.rounds

/-- R30: two engines with the same constants, at rest after any two histories, give the same result to the
same command. -/
def Obligations.ResultDependsOnTheCommandOnly : Prop :=
  ∀ (s s' : State) (d : BitVec 1) (x : Block) (k : Key),
    s.resetPort = false → s.startPort = false → s.run = .idle ∨ s.run = .done →
    s'.resetPort = false → s'.startPort = false → s'.run = .idle ∨ s'.run = .done → s.inst = s'.inst →
    ∃ u u' c, runActions (.start d x k :: List.replicate (3 * s.inst.rounds) .engine) s = .next u ∧
      runActions (.start d x k :: List.replicate (3 * s'.inst.rounds) .engine) s' = .next u' ∧
      u.dout = some c ∧ u'.dout = some c

/-- R127 in one step: unless a START is accepted (none is presented, or the engine is `BUSY`, or a RESET is
presented with it and wins, R122), a step neither reads nor changes the levels of `cmd`, `din`
and `key`. -/
def Obligations.PortsAreReadOnlyByStart : Prop :=
  ∀ (s t : State) (c : BitVec 1) (d : Block) (k : Key), s.startPort = false ∨ s.run = .busy ∨ s.resetPort = true → step s = .next t →
    step { s with cmdPort := c, dinPort := d, keyPort := k } =
      .next { t with cmdPort := c, dinPort := d, keyPort := k }

/-- The positions the sequencer passes through, and when it completes, do not depend on what `BLOCK` and `KEYR`
hold (the closing sentences of R81 and R90). -/
def Obligations.SequenceDoesNotDependOnData : Prop :=
  ∀ (n : Nat) (s t : State) (b : Block) (k : Key), s.startPort = false → s.resetPort = false →
    steps n s = .next t →
    ∃ t', steps n { s with block := b, keyr := k } = .next t' ∧
      t' = { t with block := t'.block, keyr := t'.keyr }

/-- R121: an engine at rest with no request pending stays as it is for any number of steps; so a result is held
until the next START or RESET. -/
def Obligations.EngineAtRestStays : Prop :=
  ∀ (n : Nat) (s : State), s.resetPort = false → s.startPort = false → s.run = .idle ∨ s.run = .done →
    steps n s = .next s

/-- `dout` is `BLOCK` while `done = 1` and otherwise has no value, the first of the two readings that R129
allows a model (log entry 12); `busy` and `done` show `RUN`. -/
def Obligations.DoutIsDefinedUnderDoneOnly : Prop :=
  ∀ s : State, (s.done = true → s.dout = some s.block) ∧ (s.done = false → s.dout = none) ∧
    (s.busy = true ↔ s.run = .busy) ∧ (s.done = true ↔ s.run = .done)

/-! ## Invariants and safety -/

/-- The invariant of the control state holds after reset, for every instance. -/
def Obligations.InvariantHoldsAfterReset : Prop :=
  ControlInv State.reset ∧ ∀ i : Instance, ControlInv (State.resetOf i)

/-- Every step keeps the invariant of the control state: `IDLE` at position `(0, 0)`, `RIDX < ROUNDS` under
`BUSY` (R23), and `SEQ = (ROUNDS - 1, 2)` under `DONE` (R128). -/
def Obligations.StepKeepsTheInvariant : Prop :=
  ∀ s t : State, ControlInv s → step s = .next t → ControlInv t

/-- In every state of the invariant, whatever the host does, the machine goes on: no fault and no refusal
(R107). -/
def Obligations.MachineNeverStops : Prop :=
  ∀ s : State, ControlInv s → (∃ t, step s = .next t) ∧ ∀ a : Action, ∃ t, act a s = .next t ∧ ControlInv t

/-- Every state that a run reaches from the state after reset of any instance satisfies the invariant, and
every run goes through: RESETs, STARTs and port changes of the host at any points. -/
def Obligations.RunsNeverStop : Prop :=
  ∀ (i : Instance) (as : List Action), ∃ t, runActions as (State.resetOf i) = .next t ∧ ControlInv t ∧ t.inst = i

/-- R18: no operation, no step, no RESET and no other act of the host changes the constants of the
instance. -/
def Obligations.ConstantsNeverChange : Prop :=
  (∀ (i : Instr) (s t : State), exec i s = .next t → t.inst = s.inst) ∧
  (∀ s t : State, step s = .next t → t.inst = s.inst) ∧
  (∀ (a : Action) (s t : State), act a s = .next t → t.inst = s.inst)

/-! ## Codes -/

/-- R56: the opcode map, and the decoder and encoder inverse to each other on it. -/
def Obligations.OpcodeMap : Prop :=
  decode (.c 0b0#1) = .enc ∧ decode (.c 0b1#1) = .dec ∧
  decode (.u 0b00#2) = .kmix ∧ decode (.u 0b01#2) = .perm ∧
  decode (.u 0b10#2) = .subf ∧ decode (.u 0b11#2) = .subi ∧
  (∀ i : Instr, decode (encode i) = i) ∧ ∀ c : Code, encode (decode c) = c

/-- A number is read as an operation exactly when it is the operation's code in that format: none within the
format's width is refused (30_encoding.md, Reserved, illegal and hint encodings; Variable length, prefixes). That
codes are read from numbers, and that a number with bits above the width is refused, is the model's choice (log
entry 10). -/
def Obligations.NumbersDecodeToTheirCodeOnly : Prop :=
  ∀ (f : Format) (w : Nat),
    (∀ i : Instr, decodeNat f w = .ok i ↔ (encode i).format = f ∧ (encode i).toNat = w) ∧
    (w < 2 ^ f.width ↔ ∃ i, decodeNat f w = .ok i)

/-- The model's own (log entry 11): a word placed for the next step is run by the next step, a command as the
START on the ports and a micro-operation as the row at the sequencer's position, to whose next position the step
goes on; PERM where `ROUNDS` is at least 2. -/
def Obligations.PlacedWordIsRun : Prop :=
  ∀ (i : Instr) (s : State), (i = .perm → 2 ≤ s.inst.rounds) →
    (i.format = .C → step (s.withFetchWord 1 (encode i).toNat) =
      exec i { s.withFetchWord 1 (encode i).toNat with resetPort := false, startPort := false }) ∧
    (i.format = .U → ∃ t r ph, (s.withFetchWord 2 (encode i).toNat).row = some (i, .goto r ph) ∧
      exec i (s.withFetchWord 2 (encode i).toNat) = .next t ∧
      (step (s.withFetchWord 2 (encode i).toNat) = .next { t with ridx := r, phase := ph }))

/-! ## Construction -/

/-- R10, R13: an instance is built exactly from a positive round count and a table of eight pairwise distinct
entries in 0..7; it has that round count and that table, and its inverse table is the table's inverse. -/
def Obligations.ConstructionChecksTheConstants : Prop :=
  ∀ (rounds : Nat) (entries : List Nat),
    ((∃ k, buildInstance rounds entries = .ok k) ↔
      1 ≤ rounds ∧ entries.length = 8 ∧ (∀ e ∈ entries, e < 8) ∧ entries.Nodup) ∧
    ∀ k, buildInstance rounds entries = .ok k →
      k.rounds = rounds ∧ (∀ a : Group, entries[a.toNat]? = some (Table.read k.sboxFwd a).toNat) ∧
      ∀ v : Group, Table.read k.sboxInv (Table.read k.sboxFwd v) = v

/-- The contents of `SBOX_FWD` (R11); and those of `SBOX_INV`, which the spec computes from it
(00_scope.md, Implementation parameters). -/
def Obligations.DefaultTables : Prop :=
  (defaultInstance.sboxFwd = #v[4, 0, 7, 3, 5, 1, 2, 6] ∧
    memRead defaultInstance .fwd 0 = 4 ∧ memRead defaultInstance .fwd 7 = 6) ∧
  defaultInstance.sboxInv = #v[1, 5, 6, 3, 0, 4, 7, 2]

/-! ## Host software (46_host_software.md) -/

/-- R32: a host's numbers of 512 or more are refused and not masked; smaller ones reach the command as they
are. -/
def Obligations.HostCallRefusesWideNumbers : Prop :=
  ∀ (i : Instance) (d : BitVec 1) (b k : Nat),
    (b < 512 ∧ k < 512 → ∃ r, hostCall i d b k = .ok r ∧ r < 512 ∧
      r = (if d = 0 then encFun i (BitVec.ofNat 9 b) (BitVec.ofNat 9 k)
           else decFun i (BitVec.ofNat 9 b) (BitVec.ofNat 9 k)).toNat) ∧
    (512 ≤ b ∨ 512 ≤ k → ∃ e, hostCall i d b k = .error e)

/-- R103: on a non-empty sequence of pairs, `search_key` answers a key exactly when it is the first candidate
under which ENC reproduces every pair. -/
def Obligations.SearchKeyReturnsTheFirstMatch : Prop :=
  ∀ (i : Instance) (candidates : List Key) (pairs : List (Block × Block)) (k : Key),
    pairs ≠ [] →
    (searchKey i candidates pairs = .ok k ↔
      ∃ before after, candidates = before ++ k :: after ∧
        (∀ pc ∈ pairs, encFun i pc.1 k = pc.2) ∧
        ∀ k' ∈ before, ∃ pc ∈ pairs, encFun i pc.1 k' ≠ pc.2)

/-- R104: `search_key` signals key not found exactly when no candidate reproduces every pair; so the key that
made the pairs, if it is a candidate, is never missed. -/
def Obligations.SearchKeyFailsWithoutAMatch : Prop :=
  ∀ (i : Instance) (candidates : List Key) (pairs : List (Block × Block)), pairs ≠ [] →
    (searchKey i candidates pairs = .error .keyNotFound ↔
      ∀ k ∈ candidates, ∃ pc ∈ pairs, encFun i pc.1 k ≠ pc.2) ∧
    ∀ k ∈ candidates, (∀ pc ∈ pairs, pc.2 = encFun i pc.1 k) →
      ∃ k', searchKey i candidates pairs = .ok k'

/-- An entry of the bias table (R99) is the number of inputs on which the two parities agree, and is in 0..8; the
table has seven rows of seven entries; and, for the table of R11, it is the table that the spec marks as derived
from these (46_host_software.md, Bias Analyzer). -/
def Obligations.BiasTableCountsAgreements : Prop :=
  (∀ (t : Table) (i j : Group), bias t i j ≤ 8 ∧
    bias t i j = ([0, 1, 2, 3, 4, 5, 6, 7] : List Group).countP
      (fun v => parityGroup (v &&& i) == parityGroup (Table.read t v &&& j))) ∧
  (∀ t : Table, biasTable t = ([1, 2, 3, 4, 5, 6, 7] : List Group).map fun i =>
    ([1, 2, 3, 4, 5, 6, 7] : List Group).map fun j => bias t i j) ∧
  biasTable defaultInstance.sboxFwd =
    [[4, 4, 4, 2, 6, 2, 2], [4, 8, 4, 4, 4, 4, 4], [4, 4, 4, 2, 2, 2, 6], [4, 4, 8, 4, 4, 4, 4],
     [4, 4, 4, 2, 2, 6, 2], [8, 4, 4, 4, 4, 4, 4], [4, 4, 4, 6, 2, 2, 2]]

/-- The collector's output (R101). Where every position is one of 1..9: an approximation's value on a pair is
the XOR of the bits `9 - q` of the plaintext and of the ciphertext over its positions `q` (R62); the collector
answers the drawn plaintexts in order, each with its ciphertext, and for each approximation the number of samples on
which that XOR is 1; and the frequency of a count is the count divided by the number of samples, if there is one.
Where a position is outside 1..9 it refuses. The arguments are log entry 21, the refusal log entry 18. -/
def Obligations.CollectorPairsAndCounts : Prop :=
  ∀ (i : Instance) (k : Key) (approx : List Approximation) (ps : List Block),
    ((∀ a ∈ approx, ∀ q ∈ a.plain ++ a.cipher, 1 ≤ q ∧ q ≤ 9) →
      (∀ a ∈ approx, ∀ p c : Block, a.value (p, c) = some (BitVec.ofBool (Bool.xor
        ((a.plain.map fun q => p.getLsbD (9 - q)).foldr Bool.xor false)
        ((a.cipher.map fun q => c.getLsbD (9 - q)).foldr Bool.xor false)))) ∧
      ∃ st, collect i k approx ps = some st ∧ st.pairs = ps.map (fun p => (p, encFun i p k)) ∧
        st.counts = approx.map (fun a => ps.countP fun p => Bool.xor
          ((a.plain.map fun q => p.getLsbD (9 - q)).foldr Bool.xor false)
          ((a.cipher.map fun q => (encFun i p k).getLsbD (9 - q)).foldr Bool.xor false)) ∧
        ∀ c ∈ st.counts, c ≤ ps.length ∧
          (ps ≠ [] → frequency st c = (c : Rat) / (ps.length : Rat))) ∧
    ((∃ a ∈ approx, ∃ q ∈ a.plain ++ a.cipher, q < 1 ∨ 9 < q) → collect i k approx ps = none)
end

