-- ==== Sys2Proof/Laws/HostSoftware.lean ====
section
/-! SUPPORT. What the functions of the collector compute (46_host_software.md R101, 40_bit_utilities.md
R62). -/

namespace Sys2Proof.Machine

/-- `get_bit` on a position of its range (R62). -/
theorem getBit_of_position {p : Nat} (b : Block) (hp : 1 ≤ p ∧ p ≤ 9) :
    getBit b p = some (BitVec.ofBool (b.getLsbD (9 - p))) := by
  simp [getBit, positionOk, hp]

/-- The XOR of single bits is the single bit of their XOR. -/
theorem ofBool_xor_ofBool (x y : Bool) :
    BitVec.ofBool x ^^^ BitVec.ofBool y = BitVec.ofBool (Bool.xor x y) := by
  cases x <;> cases y <;> rfl

/-- `xorBits` on positions of `get_bit`'s range is the XOR of the bits `9 - q`. -/
theorem xorBits_of_positions (b : Block) {qs : List Nat} (h : ∀ q ∈ qs, 1 ≤ q ∧ q ≤ 9) :
    xorBits b qs = some (BitVec.ofBool ((qs.map fun q => b.getLsbD (9 - q)).foldr Bool.xor false)) := by
  induction qs with
  | nil => rfl
  | cons q qs ih =>
    have hq := getBit_of_position b (h q List.mem_cons_self)
    have hqs := ih fun r hr => h r (List.mem_cons_of_mem _ hr)
    simp only [xorBits, hq, hqs, ofBool_xor_ofBool, List.map_cons, List.foldr_cons]

end Sys2Proof.Machine
end

