-- ==== Sys2Proof/Laws/State.lean ====
section
/-! SUPPORT. One lemma per field of the state per update of it, all true by `rfl`. -/

namespace Sys2Proof.Machine

/-! Writing `BLOCK` (R19). -/

@[simp] theorem State.writeBlock_inst (s : State) (b : Block) :
    (s.writeBlock b).inst = s.inst := rfl
@[simp] theorem State.writeBlock_block (s : State) (b : Block) : (s.writeBlock b).block = b := rfl
@[simp] theorem State.writeBlock_keyr (s : State) (b : Block) :
    (s.writeBlock b).keyr = s.keyr := rfl
@[simp] theorem State.writeBlock_dir (s : State) (b : Block) : (s.writeBlock b).dir = s.dir := rfl
@[simp] theorem State.writeBlock_ridx (s : State) (b : Block) :
    (s.writeBlock b).ridx = s.ridx := rfl
@[simp] theorem State.writeBlock_phase (s : State) (b : Block) :
    (s.writeBlock b).phase = s.phase := rfl
@[simp] theorem State.writeBlock_run (s : State) (b : Block) : (s.writeBlock b).run = s.run := rfl
@[simp] theorem State.writeBlock_resetPort (s : State) (b : Block) :
    (s.writeBlock b).resetPort = s.resetPort := rfl
@[simp] theorem State.writeBlock_startPort (s : State) (b : Block) :
    (s.writeBlock b).startPort = s.startPort := rfl
@[simp] theorem State.writeBlock_cmdPort (s : State) (b : Block) :
    (s.writeBlock b).cmdPort = s.cmdPort := rfl
@[simp] theorem State.writeBlock_dinPort (s : State) (b : Block) :
    (s.writeBlock b).dinPort = s.dinPort := rfl
@[simp] theorem State.writeBlock_keyPort (s : State) (b : Block) :
    (s.writeBlock b).keyPort = s.keyPort := rfl
@[simp] theorem State.writeBlock_freeCount (s : State) (b : Block) :
    (s.writeBlock b).freeCount = s.freeCount := rfl

/-! Lowering the host's requests (R126). -/

@[simp] theorem lowerRequests_inst (s : State) : (lowerRequests s).inst = s.inst := rfl
@[simp] theorem lowerRequests_block (s : State) : (lowerRequests s).block = s.block := rfl
@[simp] theorem lowerRequests_keyr (s : State) : (lowerRequests s).keyr = s.keyr := rfl
@[simp] theorem lowerRequests_dir (s : State) : (lowerRequests s).dir = s.dir := rfl
@[simp] theorem lowerRequests_ridx (s : State) : (lowerRequests s).ridx = s.ridx := rfl
@[simp] theorem lowerRequests_phase (s : State) : (lowerRequests s).phase = s.phase := rfl
@[simp] theorem lowerRequests_run (s : State) : (lowerRequests s).run = s.run := rfl
@[simp] theorem lowerRequests_resetPort (s : State) : (lowerRequests s).resetPort = false := rfl
@[simp] theorem lowerRequests_startPort (s : State) : (lowerRequests s).startPort = false := rfl
@[simp] theorem lowerRequests_cmdPort (s : State) : (lowerRequests s).cmdPort = s.cmdPort := rfl
@[simp] theorem lowerRequests_dinPort (s : State) : (lowerRequests s).dinPort = s.dinPort := rfl
@[simp] theorem lowerRequests_keyPort (s : State) : (lowerRequests s).keyPort = s.keyPort := rfl
@[simp] theorem lowerRequests_freeCount (s : State) :
    (lowerRequests s).freeCount = s.freeCount := rfl

/-! Driving the ports (R127). -/

@[simp] theorem drivePorts_inst (c : BitVec 1) (d : Block) (k : Key) (s : State) :
    (drivePorts c d k s).inst = s.inst := rfl
@[simp] theorem drivePorts_block (c : BitVec 1) (d : Block) (k : Key) (s : State) :
    (drivePorts c d k s).block = s.block := rfl
@[simp] theorem drivePorts_keyr (c : BitVec 1) (d : Block) (k : Key) (s : State) :
    (drivePorts c d k s).keyr = s.keyr := rfl
@[simp] theorem drivePorts_dir (c : BitVec 1) (d : Block) (k : Key) (s : State) :
    (drivePorts c d k s).dir = s.dir := rfl
@[simp] theorem drivePorts_ridx (c : BitVec 1) (d : Block) (k : Key) (s : State) :
    (drivePorts c d k s).ridx = s.ridx := rfl
@[simp] theorem drivePorts_phase (c : BitVec 1) (d : Block) (k : Key) (s : State) :
    (drivePorts c d k s).phase = s.phase := rfl
@[simp] theorem drivePorts_run (c : BitVec 1) (d : Block) (k : Key) (s : State) :
    (drivePorts c d k s).run = s.run := rfl
@[simp] theorem drivePorts_resetPort (c : BitVec 1) (d : Block) (k : Key) (s : State) :
    (drivePorts c d k s).resetPort = s.resetPort := rfl
@[simp] theorem drivePorts_startPort (c : BitVec 1) (d : Block) (k : Key) (s : State) :
    (drivePorts c d k s).startPort = s.startPort := rfl
@[simp] theorem drivePorts_cmdPort (c : BitVec 1) (d : Block) (k : Key) (s : State) :
    (drivePorts c d k s).cmdPort = c := rfl
@[simp] theorem drivePorts_dinPort (c : BitVec 1) (d : Block) (k : Key) (s : State) :
    (drivePorts c d k s).dinPort = d := rfl
@[simp] theorem drivePorts_keyPort (c : BitVec 1) (d : Block) (k : Key) (s : State) :
    (drivePorts c d k s).keyPort = k := rfl
@[simp] theorem drivePorts_freeCount (c : BitVec 1) (d : Block) (k : Key) (s : State) :
    (drivePorts c d k s).freeCount = s.freeCount := rfl

/-! A RESET event (R122). -/

@[simp] theorem resetEngine_inst (s : State) : (resetEngine s).inst = s.inst := rfl
@[simp] theorem resetEngine_block (s : State) :
    (resetEngine s).block = Config.lostWord s.freeCount := rfl
@[simp] theorem resetEngine_keyr (s : State) :
    (resetEngine s).keyr = Config.lostWord (s.freeCount + 1) := rfl
@[simp] theorem resetEngine_dir (s : State) : (resetEngine s).dir = 0 := rfl
@[simp] theorem resetEngine_ridx (s : State) : (resetEngine s).ridx = 0 := rfl
@[simp] theorem resetEngine_phase (s : State) : (resetEngine s).phase = .p0 := rfl
@[simp] theorem resetEngine_run (s : State) : (resetEngine s).run = .idle := rfl
@[simp] theorem resetEngine_resetPort (s : State) : (resetEngine s).resetPort = s.resetPort := rfl
@[simp] theorem resetEngine_startPort (s : State) : (resetEngine s).startPort = s.startPort := rfl
@[simp] theorem resetEngine_cmdPort (s : State) : (resetEngine s).cmdPort = s.cmdPort := rfl
@[simp] theorem resetEngine_dinPort (s : State) : (resetEngine s).dinPort = s.dinPort := rfl
@[simp] theorem resetEngine_keyPort (s : State) : (resetEngine s).keyPort = s.keyPort := rfl
@[simp] theorem resetEngine_freeCount (s : State) :
    (resetEngine s).freeCount = s.freeCount + 2 := rfl

/-! The sequencer's advance to a position (R82, R91). -/

@[simp] theorem advance_goto_inst (r : Nat) (ph : Phase) (s : State) :
    (advance (.goto r ph) s).inst = s.inst := rfl
@[simp] theorem advance_goto_block (r : Nat) (ph : Phase) (s : State) :
    (advance (.goto r ph) s).block = s.block := rfl
@[simp] theorem advance_goto_keyr (r : Nat) (ph : Phase) (s : State) :
    (advance (.goto r ph) s).keyr = s.keyr := rfl
@[simp] theorem advance_goto_dir (r : Nat) (ph : Phase) (s : State) :
    (advance (.goto r ph) s).dir = s.dir := rfl
@[simp] theorem advance_goto_ridx (r : Nat) (ph : Phase) (s : State) :
    (advance (.goto r ph) s).ridx = r := rfl
@[simp] theorem advance_goto_phase (r : Nat) (ph : Phase) (s : State) :
    (advance (.goto r ph) s).phase = ph := rfl
@[simp] theorem advance_goto_run (r : Nat) (ph : Phase) (s : State) :
    (advance (.goto r ph) s).run = s.run := rfl
@[simp] theorem advance_goto_resetPort (r : Nat) (ph : Phase) (s : State) :
    (advance (.goto r ph) s).resetPort = s.resetPort := rfl
@[simp] theorem advance_goto_startPort (r : Nat) (ph : Phase) (s : State) :
    (advance (.goto r ph) s).startPort = s.startPort := rfl
@[simp] theorem advance_goto_cmdPort (r : Nat) (ph : Phase) (s : State) :
    (advance (.goto r ph) s).cmdPort = s.cmdPort := rfl
@[simp] theorem advance_goto_dinPort (r : Nat) (ph : Phase) (s : State) :
    (advance (.goto r ph) s).dinPort = s.dinPort := rfl
@[simp] theorem advance_goto_keyPort (r : Nat) (ph : Phase) (s : State) :
    (advance (.goto r ph) s).keyPort = s.keyPort := rfl
@[simp] theorem advance_goto_freeCount (r : Nat) (ph : Phase) (s : State) :
    (advance (.goto r ph) s).freeCount = s.freeCount := rfl

/-! Completion (R128). -/

@[simp] theorem advance_complete_inst (s : State) : (advance .complete s).inst = s.inst := rfl
@[simp] theorem advance_complete_block (s : State) : (advance .complete s).block = s.block := rfl
@[simp] theorem advance_complete_keyr (s : State) :
    (advance .complete s).keyr = Config.lostWord s.freeCount := rfl
@[simp] theorem advance_complete_dir (s : State) : (advance .complete s).dir = s.dir := rfl
@[simp] theorem advance_complete_ridx (s : State) : (advance .complete s).ridx = s.ridx := rfl
@[simp] theorem advance_complete_phase (s : State) : (advance .complete s).phase = s.phase := rfl
@[simp] theorem advance_complete_run (s : State) : (advance .complete s).run = .done := rfl
@[simp] theorem advance_complete_resetPort (s : State) :
    (advance .complete s).resetPort = s.resetPort := rfl
@[simp] theorem advance_complete_startPort (s : State) :
    (advance .complete s).startPort = s.startPort := rfl
@[simp] theorem advance_complete_cmdPort (s : State) :
    (advance .complete s).cmdPort = s.cmdPort := rfl
@[simp] theorem advance_complete_dinPort (s : State) :
    (advance .complete s).dinPort = s.dinPort := rfl
@[simp] theorem advance_complete_keyPort (s : State) :
    (advance .complete s).keyPort = s.keyPort := rfl
@[simp] theorem advance_complete_freeCount (s : State) :
    (advance .complete s).freeCount = s.freeCount + 1 := rfl

/-! Placing the sequencer (log entry 11). -/

@[simp] theorem placePosition_inst (d : BitVec 1) (ph : Phase) (s : State) :
    (placePosition d ph s).inst = s.inst := rfl
@[simp] theorem placePosition_block (d : BitVec 1) (ph : Phase) (s : State) :
    (placePosition d ph s).block = s.block := rfl
@[simp] theorem placePosition_keyr (d : BitVec 1) (ph : Phase) (s : State) :
    (placePosition d ph s).keyr = s.keyr := rfl
@[simp] theorem placePosition_dir (d : BitVec 1) (ph : Phase) (s : State) :
    (placePosition d ph s).dir = d := rfl
@[simp] theorem placePosition_ridx (d : BitVec 1) (ph : Phase) (s : State) :
    (placePosition d ph s).ridx = 0 := rfl
@[simp] theorem placePosition_phase (d : BitVec 1) (ph : Phase) (s : State) :
    (placePosition d ph s).phase = ph := rfl
@[simp] theorem placePosition_run (d : BitVec 1) (ph : Phase) (s : State) :
    (placePosition d ph s).run = .busy := rfl
@[simp] theorem placePosition_resetPort (d : BitVec 1) (ph : Phase) (s : State) :
    (placePosition d ph s).resetPort = false := rfl
@[simp] theorem placePosition_startPort (d : BitVec 1) (ph : Phase) (s : State) :
    (placePosition d ph s).startPort = false := rfl
@[simp] theorem placePosition_cmdPort (d : BitVec 1) (ph : Phase) (s : State) :
    (placePosition d ph s).cmdPort = s.cmdPort := rfl
@[simp] theorem placePosition_dinPort (d : BitVec 1) (ph : Phase) (s : State) :
    (placePosition d ph s).dinPort = s.dinPort := rfl
@[simp] theorem placePosition_keyPort (d : BitVec 1) (ph : Phase) (s : State) :
    (placePosition d ph s).keyPort = s.keyPort := rfl
@[simp] theorem placePosition_freeCount (d : BitVec 1) (ph : Phase) (s : State) :
    (placePosition d ph s).freeCount = s.freeCount := rfl

/-! Placing a command (log entry 11). -/

@[simp] theorem placeCommand_inst (d : BitVec 1) (s : State) :
    (placeCommand d s).inst = s.inst := rfl
@[simp] theorem placeCommand_block (d : BitVec 1) (s : State) :
    (placeCommand d s).block = s.block := rfl
@[simp] theorem placeCommand_keyr (d : BitVec 1) (s : State) :
    (placeCommand d s).keyr = s.keyr := rfl
@[simp] theorem placeCommand_dir (d : BitVec 1) (s : State) : (placeCommand d s).dir = s.dir := rfl
@[simp] theorem placeCommand_ridx (d : BitVec 1) (s : State) :
    (placeCommand d s).ridx = s.ridx := rfl
@[simp] theorem placeCommand_phase (d : BitVec 1) (s : State) :
    (placeCommand d s).phase = s.phase := rfl
@[simp] theorem placeCommand_run (d : BitVec 1) (s : State) :
    (placeCommand d s).run = if s.busy then .idle else s.run := rfl
@[simp] theorem placeCommand_resetPort (d : BitVec 1) (s : State) :
    (placeCommand d s).resetPort = false := rfl
@[simp] theorem placeCommand_startPort (d : BitVec 1) (s : State) :
    (placeCommand d s).startPort = true := rfl
@[simp] theorem placeCommand_cmdPort (d : BitVec 1) (s : State) :
    (placeCommand d s).cmdPort = d := rfl
@[simp] theorem placeCommand_dinPort (d : BitVec 1) (s : State) :
    (placeCommand d s).dinPort = s.dinPort := rfl
@[simp] theorem placeCommand_keyPort (d : BitVec 1) (s : State) :
    (placeCommand d s).keyPort = s.keyPort := rfl
@[simp] theorem placeCommand_freeCount (d : BitVec 1) (s : State) :
    (placeCommand d s).freeCount = s.freeCount := rfl

/-! The state after reset (R35). -/

@[simp] theorem State.resetOf_inst (i : Instance) : (State.resetOf i).inst = i := rfl
@[simp] theorem State.resetOf_block (i : Instance) : (State.resetOf i).block = Config.resetBlock := rfl
@[simp] theorem State.resetOf_keyr (i : Instance) : (State.resetOf i).keyr = Config.resetKey := rfl
@[simp] theorem State.resetOf_dir (i : Instance) : (State.resetOf i).dir = 0 := rfl
@[simp] theorem State.resetOf_ridx (i : Instance) : (State.resetOf i).ridx = 0 := rfl
@[simp] theorem State.resetOf_phase (i : Instance) : (State.resetOf i).phase = .p0 := rfl
@[simp] theorem State.resetOf_run (i : Instance) : (State.resetOf i).run = .idle := rfl
@[simp] theorem State.resetOf_resetPort (i : Instance) : (State.resetOf i).resetPort = false := rfl
@[simp] theorem State.resetOf_startPort (i : Instance) : (State.resetOf i).startPort = false := rfl
@[simp] theorem State.resetOf_cmdPort (i : Instance) : (State.resetOf i).cmdPort = 0 := rfl
@[simp] theorem State.resetOf_dinPort (i : Instance) : (State.resetOf i).dinPort = Config.resetDin := rfl
@[simp] theorem State.resetOf_keyPort (i : Instance) : (State.resetOf i).keyPort = Config.resetKeyPort := rfl
@[simp] theorem State.resetOf_freeCount (i : Instance) : (State.resetOf i).freeCount = 0 := rfl

/-! The operands and the outputs. -/

@[simp] theorem State.blockOperand_eq (s : State) : s.blockOperand = s.block := rfl
@[simp] theorem State.keyOperand_eq (s : State) : s.keyOperand = s.keyr := rfl

@[simp] theorem State.busy_iff (s : State) : s.busy = true ↔ s.run = .busy := by
  simp [State.busy]

@[simp] theorem State.busy_eq_false_iff (s : State) : s.busy = false ↔ s.run ≠ .busy := by
  simp [State.busy]

@[simp] theorem State.done_iff (s : State) : s.done = true ↔ s.run = .done := by
  simp [State.done]

@[simp] theorem State.done_eq_false_iff (s : State) : s.done = false ↔ s.run ≠ .done := by
  simp [State.done]

end Sys2Proof.Machine
end

