-- ==== Sys2Proof/Laws/Ops.lean ====
section
/-! SUPPORT. For each shared operation, what it does, said once. -/

namespace Sys2Proof

theorem mem_groups (v : Group) : v ∈ groups := by
  revert v; decide

/-- Every instance has at least one round (R9). -/
theorem Instance.rounds_pos (i : Instance) : 1 ≤ i.rounds := by
  have h := i.valid
  simp only [constantsOk, Bool.and_eq_true, decide_eq_true_eq] at h
  exact h.1

/-- `SBOX_INV[SBOX_FWD[v]] = v` in every instance (R12, R33). -/
theorem Instance.inv_fwd (i : Instance) (v : Group) :
    Table.read i.sboxInv (Table.read i.sboxFwd v) = v := by
  have h := i.valid
  simp only [constantsOk, Bool.and_eq_true, List.all_eq_true, beq_iff_eq] at h
  exact h.2 v (mem_groups v)

/-- `SBOX_FWD[SBOX_INV[v]] = v` in every instance (R33): a left inverse on a finite set is a right
inverse. -/
theorem Instance.fwd_inv (i : Instance) (v : Group) :
    Table.read i.sboxFwd (Table.read i.sboxInv v) = v := by
  have hinj : Function.Injective (Table.read i.sboxFwd) :=
    Function.LeftInverse.injective (g := Table.read i.sboxInv) i.inv_fwd
  obtain ⟨w, rfl⟩ := (Finite.injective_iff_surjective.mp hinj) v
  rw [i.inv_fwd]

end Sys2Proof

namespace Sys2Proof.Machine

/-! Groups (R64): taking a block apart and putting it together are inverse to each other. -/

@[simp] theorem hi_join (h m l : Group) : hi (join h m l) = h := by
  revert h m l; decide

@[simp] theorem mid_join (h m l : Group) : mid (join h m l) = m := by
  revert h m l; decide

@[simp] theorem lo_join (h m l : Group) : lo (join h m l) = l := by
  revert h m l; decide

@[simp] theorem join_groups (b : Block) : join (hi b) (mid b) (lo b) = b := by
  revert b; decide

/-! The transforms, group by group and bit by bit. -/

@[simp] theorem memRead_fwd (k : Instance) (a : Group) :
    memRead k (spaceOf false) a = Table.read k.sboxFwd a := rfl

@[simp] theorem memRead_inv (k : Instance) (a : Group) :
    memRead k (spaceOf true) a = Table.read k.sboxInv a := rfl

@[simp] theorem hi_substitute (k : Instance) (b : Block) (inverse : Bool) :
    hi (substitute k b inverse) = memRead k (spaceOf inverse) (hi b) := by
  simp [substitute]

@[simp] theorem mid_substitute (k : Instance) (b : Block) (inverse : Bool) :
    mid (substitute k b inverse) = memRead k (spaceOf inverse) (mid b) := by
  simp [substitute]

@[simp] theorem lo_substitute (k : Instance) (b : Block) (inverse : Bool) :
    lo (substitute k b inverse) = memRead k (spaceOf inverse) (lo b) := by
  simp [substitute]

/-- Two blocks with the same groups are equal. -/
theorem block_ext {a b : Block} (h2 : hi a = hi b) (h1 : mid a = mid b) (h0 : lo a = lo b) : a = b := by
  rw [← join_groups a, ← join_groups b, h2, h1, h0]

/-! START and the sequencer's advance. -/

/-- Under `BUSY` a START changes nothing (R126). -/
theorem startCommand_busy {d : BitVec 1} {s : State} (h : s.run = .busy) : startCommand d s = s := by
  simp [startCommand, h]

/-- An accepted START (R125). -/
theorem startCommand_accepted {d : BitVec 1} {s : State} (h : s.run ≠ .busy) :
    startCommand d s =
      { s with dir := d, block := s.dinPort, keyr := s.keyPort, ridx := 0, phase := .p0, run := .busy } := by
  simp [startCommand, h]

/-- Everything a START can do. -/
theorem startCommand_cases (d : BitVec 1) (s : State) :
    (s.run = .busy ∧ startCommand d s = s) ∨
    (s.run ≠ .busy ∧ startCommand d s =
      { s with dir := d, block := s.dinPort, keyr := s.keyPort, ridx := 0, phase := .p0, run := .busy }) := by
  by_cases h : s.run = .busy
  · exact .inl ⟨h, startCommand_busy h⟩
  · exact .inr ⟨h, startCommand_accepted h⟩

@[simp] theorem startCommand_inst (d : BitVec 1) (s : State) : (startCommand d s).inst = s.inst := by
  rcases startCommand_cases d s with ⟨_, e⟩ | ⟨_, e⟩ <;> rw [e]

end Sys2Proof.Machine
end

