-- ==== Sys2Proof/Laws/PerInstr.lean ====
section
/-! SUPPORT. A statement about every operation as syntax, one lemma per constructor. -/

namespace Sys2Proof.Laws

/-- The code of an operation is of its format, fits the format's width, and is read back as it
(30_encoding.md R56, R58). -/
def ExactCode.Statement (i : Instr) : Prop :=
  (encode i).format = i.format ∧ (encode i).toNat < 2 ^ i.format.width ∧
    decodeTableWord i.format.width (encode i).toNat = some i

theorem ExactCode.enc : ExactCode.Statement .enc := by unfold ExactCode.Statement; decide
theorem ExactCode.dec : ExactCode.Statement .dec := by unfold ExactCode.Statement; decide
theorem ExactCode.kmix : ExactCode.Statement .kmix := by unfold ExactCode.Statement; decide
theorem ExactCode.perm : ExactCode.Statement .perm := by unfold ExactCode.Statement; decide
theorem ExactCode.subf : ExactCode.Statement .subf := by unfold ExactCode.Statement; decide
theorem ExactCode.subi : ExactCode.Statement .subi := by unfold ExactCode.Statement; decide

end Sys2Proof.Laws
end

