-- ==== Sys2Proof/Laws/Sequencer.lean ====
section
/-! SUPPORT. The transition tables, row by row (44_encode.md R81, 45_decode.md R90). -/

namespace Sys2Proof.Machine

/-- Every row of `ENCODE_ROUND` (R81). -/
theorem encodeRound_cases {rounds r : Nat} {ph : Phase} {op : Instr} {nxt : Next}
    (h : encodeRound rounds r ph = some (op, nxt)) :
    r < rounds ∧
      ((ph = .p0 ∧ op = .kmix ∧ nxt = .goto r .p1) ∨
       (ph = .p1 ∧ op = .subf ∧ nxt = .goto r .p2) ∨
       (ph = .p2 ∧ r + 1 ≠ rounds ∧ op = .perm ∧ nxt = .goto (r + 1) .p0) ∨
       (ph = .p2 ∧ r + 1 = rounds ∧ op = .kmix ∧ nxt = .complete)) := by
  unfold encodeRound lastRound at h
  split at h
  · cases ph <;> simp only [beq_iff_eq] at h <;> (try split at h) <;> simp_all
  · cases h

/-- Every row of `DECODE_ROUND` (R90). -/
theorem decodeRound_cases {rounds r : Nat} {ph : Phase} {op : Instr} {nxt : Next}
    (h : decodeRound rounds r ph = some (op, nxt)) :
    r < rounds ∧
      ((ph = .p0 ∧ r = 0 ∧ op = .kmix ∧ nxt = .goto r .p1) ∨
       (ph = .p0 ∧ r ≠ 0 ∧ op = .perm ∧ nxt = .goto r .p1) ∨
       (ph = .p1 ∧ op = .subi ∧ nxt = .goto r .p2) ∨
       (ph = .p2 ∧ r + 1 ≠ rounds ∧ op = .kmix ∧ nxt = .goto (r + 1) .p0) ∨
       (ph = .p2 ∧ r + 1 = rounds ∧ op = .kmix ∧ nxt = .complete)) := by
  unfold decodeRound firstRound lastRound at h
  split at h
  · cases ph <;> simp only [beq_iff_eq] at h <;> (try split at h) <;> simp_all
  · cases h

/-- What the next position of any row can be: the next phase of the round, the start of the next round,
or completion at the end of the last round (R23). -/
theorem roundTable_next {dir : BitVec 1} {rounds r : Nat} {ph : Phase} {op : Instr} {nxt : Next}
    (h : roundTable dir rounds r ph = some (op, nxt)) :
    r < rounds ∧
      ((ph = .p0 ∧ nxt = .goto r .p1) ∨ (ph = .p1 ∧ nxt = .goto r .p2) ∨
       (ph = .p2 ∧ r + 1 < rounds ∧ nxt = .goto (r + 1) .p0) ∨
       (ph = .p2 ∧ r + 1 = rounds ∧ nxt = .complete)) := by
  unfold roundTable at h
  split at h
  · obtain ⟨hr, h⟩ := encodeRound_cases h
    refine ⟨hr, ?_⟩
    rcases h with ⟨p, _, n⟩ | ⟨p, _, n⟩ | ⟨p, l, _, n⟩ | ⟨p, l, _, n⟩
    · exact .inl ⟨p, n⟩
    · exact .inr (.inl ⟨p, n⟩)
    · exact .inr (.inr (.inl ⟨p, by omega, n⟩))
    · exact .inr (.inr (.inr ⟨p, l, n⟩))
  · obtain ⟨hr, h⟩ := decodeRound_cases h
    refine ⟨hr, ?_⟩
    rcases h with ⟨p, _, _, n⟩ | ⟨p, _, _, n⟩ | ⟨p, _, n⟩ | ⟨p, l, _, n⟩ | ⟨p, l, _, n⟩
    · exact .inl ⟨p, n⟩
    · exact .inl ⟨p, n⟩
    · exact .inr (.inl ⟨p, n⟩)
    · exact .inr (.inr (.inl ⟨p, by omega, n⟩))
    · exact .inr (.inr (.inr ⟨p, l, n⟩))

/-- A table has a row at every position of a round below `ROUNDS`. -/
theorem roundTable_isSome {dir : BitVec 1} {rounds r : Nat} {ph : Phase} (h : r < rounds) :
    ∃ op nxt, roundTable dir rounds r ph = some (op, nxt) := by
  unfold roundTable encodeRound decodeRound
  simp only [h, if_true]
  split <;> cases ph <;> simp only <;> (try split) <;> exact ⟨_, _, rfl⟩

/-- Past the last round a table has no row. -/
theorem roundTable_none {dir : BitVec 1} {rounds r : Nat} {ph : Phase} (h : ¬ r < rounds) :
    roundTable dir rounds r ph = none := by
  simp [roundTable, encodeRound, decodeRound, h]

end Sys2Proof.Machine
end

