-- ==== Sys2Proof/Laws/Step.lean ====
section
/-! SUPPORT. What a step can do, said once; later proofs cite these lemmas instead of unfolding the step. -/

namespace Sys2Proof.Machine

/-- Every operation's meaning in one equation each (R66, R70, R71, R76, R125). -/
theorem exec_kmix (s : State) : exec .kmix s = .next (s.writeBlock (keyMix s.block s.keyr)) := rfl
theorem exec_perm (s : State) : exec .perm s = .next (s.writeBlock (permute s.block)) := rfl
theorem exec_subf (s : State) : exec .subf s = .next (s.writeBlock (substitute s.inst s.block false)) := rfl
theorem exec_subi (s : State) : exec .subi s = .next (s.writeBlock (substitute s.inst s.block true)) := rfl
theorem exec_enc (s : State) : exec .enc s = .next (startCommand 0#1 s) := rfl
theorem exec_dec (s : State) : exec .dec s = .next (startCommand 1#1 s) := rfl

/-- A micro-operation of a transition table, run: a new block and nothing else. -/
theorem exec_row {dir : BitVec 1} {rounds r : Nat} {ph : Phase} {op : Instr} {nxt : Next}
    (h : roundTable dir rounds r ph = some (op, nxt)) (s : State) :
    ∃ b, exec (decode (encode op)) s = .next (s.writeBlock b) := by
  have hop : op = .kmix ∨ op = .perm ∨ op = .subf ∨ op = .subi := by
    unfold roundTable at h
    split at h
    · rcases encodeRound_cases h with ⟨_, ⟨_, e, _⟩ | ⟨_, e, _⟩ | ⟨_, _, e, _⟩ | ⟨_, _, e, _⟩⟩ <;> simp [e]
    · rcases decodeRound_cases h with
        ⟨_, ⟨_, _, e, _⟩ | ⟨_, _, e, _⟩ | ⟨_, e, _⟩ | ⟨_, _, e, _⟩ | ⟨_, _, e, _⟩⟩ <;> simp [e]
  rcases hop with rfl | rfl | rfl | rfl
  · exact ⟨_, exec_kmix s⟩
  · exact ⟨_, exec_perm s⟩
  · exact ⟨_, exec_subf s⟩
  · exact ⟨_, exec_subi s⟩

/-- The command on the port is a START with its code (R53). -/
theorem startStep_eq (s : State) : startStep s = .next (startCommand s.cmdPort (lowerRequests s)) := by
  rcases BitVec.eq_zero_or_eq_one s.cmdPort with h | h <;> simp only [startStep, State.portInstr, h] <;> rfl

/-- Everything an engine step can do: it has a row, runs its micro-operation and advances, or the
sequencer stands outside its table. -/
theorem engineStep_cases (s : State) :
    (∃ op nxt b, s.row = some (op, nxt) ∧ exec (decode (encode op)) s = .next (s.writeBlock b) ∧
      engineStep s = .next (advance nxt (s.writeBlock b))) ∨
    (¬ s.ridx < s.inst.rounds ∧ engineStep s = .refused .sequencerOutsideTable) := by
  by_cases h : s.ridx < s.inst.rounds
  · obtain ⟨op, nxt, e⟩ := roundTable_isSome (dir := s.dir) (ph := s.phase) h
    obtain ⟨b, hb⟩ := exec_row e s
    refine .inl ⟨op, nxt, b, e, hb, ?_⟩
    have e' : s.row = some (op, nxt) := e
    simp only [engineStep, e', hb, advanceAfter]
  · refine .inr ⟨h, ?_⟩
    have e : s.row = none := roundTable_none h
    simp only [engineStep, e]

/-- Everything a step can do: RESET, else START, else the engine, else nothing. -/
theorem step_cases (s : State) :
    (s.resetPort = true ∧ step s = .next (resetEngine (lowerRequests s))) ∨
    (s.resetPort = false ∧ s.startPort = true ∧
      step s = .next (startCommand s.cmdPort (lowerRequests s))) ∨
    (Quiet s ∧ s.run = .busy ∧ step s = engineStep s) ∨
    (Quiet s ∧ s.run ≠ .busy ∧ step s = .next s) := by
  by_cases hr : s.resetPort = true
  · exact .inl ⟨hr, by simp [step, cycle, hr, resetStep]⟩
  · have hr' : s.resetPort = false := by simpa using hr
    by_cases hs : s.startPort = true
    · exact .inr (.inl ⟨hr', hs, by simp [step, cycle, hr', hs, startStep_eq]⟩)
    · have hs' : s.startPort = false := by simpa using hs
      by_cases hb : s.run = .busy
      · exact .inr (.inr (.inl ⟨⟨hr', hs'⟩, hb, by simp [step, cycle, hr', hs', hb, State.busy]⟩))
      · exact .inr (.inr (.inr ⟨⟨hr', hs'⟩, hb, by simp [step, cycle, hr', hs', hb, State.busy]⟩))

/-- A step that answers a next state, in terms of records: RESET, START, a micro-operation with the
sequencer's advance, or nothing. -/
theorem step_next_cases {s t : State} (h : step s = .next t) :
    t = resetEngine (lowerRequests s) ∨ t = startCommand s.cmdPort (lowerRequests s) ∨
    (Quiet s ∧ s.run = .busy ∧ ∃ op nxt b, s.row = some (op, nxt) ∧
      exec (decode (encode op)) s = .next (s.writeBlock b) ∧ t = advance nxt (s.writeBlock b)) ∨
    (Quiet s ∧ s.run ≠ .busy ∧ t = s) := by
  rcases step_cases s with ⟨_, e⟩ | ⟨_, _, e⟩ | ⟨q, b, e⟩ | ⟨q, b, e⟩ <;> rw [e] at h
  · exact .inl (by simpa using h.symm)
  · exact .inr (.inl (by simpa using h.symm))
  · rcases engineStep_cases s with ⟨op, nxt, v, e1, e2, e3⟩ | ⟨_, e3⟩ <;> rw [e3] at h
    · exact .inr (.inr (.inl ⟨q, b, op, nxt, v, e1, e2, by simpa using h.symm⟩))
    · cases h
  · exact .inr (.inr (.inr ⟨q, b, by simpa using h.symm⟩))

/-! Runs of several steps. -/

theorem steps_zero (s : State) : steps 0 s = .next s := rfl

theorem steps_succ (n : Nat) (s : State) :
    steps (n + 1) s = match step s with
      | .next t => steps n t
      | .fault f => .fault f
      | .refused r => .refused r := rfl

theorem steps_succ_of_next {s t : State} (n : Nat) (h : step s = .next t) : steps (n + 1) s = steps n t := by
  rw [steps_succ, h]

/-- A run of `m + n` steps is a run of `m` steps and then one of `n`. -/
theorem steps_add {m n : Nat} {s t : State} (h : steps m s = .next t) : steps (m + n) s = steps n t := by
  induction m generalizing s with
  | zero => rw [steps_zero] at h; cases h; rw [Nat.zero_add]
  | succ m ih =>
    rw [steps_succ] at h
    rw [Nat.succ_add, steps_succ]
    cases e : step s with
    | next u => rw [e] at h; exact ih h
    | fault f => rw [e] at h; cases h
    | refused r => rw [e] at h; cases h

end Sys2Proof.Machine
end

