-- ==== Sys2Proof/Laws/Tables.lean ====
section
/-! SUPPORT. The construction of an instance: a table that passes the checks of 00_scope.md R13 always
passes the defining equation of its inverse (R12). -/

namespace Sys2Proof.Machine

/-- An entry of the table made of a list is the list's number at that place. -/
theorem tableOf_read (entries : List Nat) (a : Group) :
    Table.read (tableOf entries) a = BitVec.ofNat 3 (entries.getD a.toNat 0) := by
  have ha : a ∈ groups := mem_groups a
  simp only [groups, List.mem_cons, List.not_mem_nil, or_false] at ha
  rcases ha with rfl | rfl | rfl | rfl | rfl | rfl | rfl | rfl <;> rfl

/-- An entry of the inverse table is where the forward table holds it. -/
theorem invertTable_read (t : Table) (w : Group) : Table.read (invertTable t) w = entryIndex t w := by
  have hw : w ∈ groups := mem_groups w
  simp only [groups, List.mem_cons, List.not_mem_nil, or_false] at hw
  rcases hw with rfl | rfl | rfl | rfl | rfl | rfl | rfl | rfl <;> rfl

/-- For an injective table, the place of the entry at `v` is `v`. -/
theorem entryIndex_read {t : Table} (ht : Function.Injective (Table.read t)) (v : Group) :
    entryIndex t (Table.read t v) = v := by
  unfold entryIndex
  cases h : groups.find? (fun u => Table.read t u == Table.read t v) with
  | none =>
    rw [List.find?_eq_none] at h
    simpa using h v (mem_groups v)
  | some u =>
    have := List.find?_some h
    exact ht (by simpa using this)

/-- Distinct numbers below 8 make an injective table (R13). -/
theorem tableOf_injective {entries : List Nat} (hl : entries.length = 8) (hr : ∀ e ∈ entries, e < 8)
    (hd : entries.Nodup) : Function.Injective (Table.read (tableOf entries)) := by
  intro a b hab
  have key : ∀ c : Group, c.toNat < entries.length := fun c => by rw [hl]; exact c.isLt
  have val : ∀ c : Group, entries.getD c.toNat 0 < 8 := fun c => by
    rw [List.getD_eq_getElem _ _ (key c)]; exact hr _ (List.getElem_mem _)
  rw [tableOf_read, tableOf_read] at hab
  have h := congrArg BitVec.toNat hab
  rw [BitVec.toNat_ofNat, BitVec.toNat_ofNat, Nat.mod_eq_of_lt (val a), Nat.mod_eq_of_lt (val b),
    List.getD_eq_getElem _ _ (key a), List.getD_eq_getElem _ _ (key b)] at h
  exact BitVec.eq_of_toNat_eq ((List.Nodup.getElem_inj_iff hd).mp h)

/-- A positive round count and a table of eight distinct numbers below 8 pass the check on the
constants (R12, R13). -/
theorem constantsOk_of_checks {rounds : Nat} {entries : List Nat} (h1 : 1 ≤ rounds)
    (hl : entries.length = 8) (hr : ∀ e ∈ entries, e < 8) (hd : entries.Nodup) :
    constantsOk rounds (tableOf entries) (invertTable (tableOf entries)) = true := by
  simp only [constantsOk, Bool.and_eq_true, decide_eq_true_eq, List.all_eq_true, beq_iff_eq]
  refine ⟨h1, fun v _ => ?_⟩
  rw [invertTable_read, entryIndex_read (tableOf_injective hl hr hd)]

/-- The last test of `buildInstance` never refuses what has passed the checks of R13. -/
theorem buildInstance_ok {rounds : Nat} {entries : List Nat} (h1 : 1 ≤ rounds)
    (hl : entries.length = 8) (hr : ∀ e ∈ entries, e < 8) (hd : entries.Nodup) :
    buildInstance rounds entries =
      .ok ⟨rounds, tableOf entries, invertTable (tableOf entries), constantsOk_of_checks h1 hl hr hd⟩ := by
  simp [buildInstance, roundsOk, tableLengthOk, tableRangeOk, tableDistinctOk, Nat.one_le_iff_ne_zero.mp h1,
    hl, hd, constantsOk_of_checks h1 hl hr hd]
  exact hr

end Sys2Proof.Machine
end

