-- ==== Sys2Proof/Tests/Slice0.lean ====
section
/-! SUPPORT. Tests of single operations and steps, with the values of spec/95_test_vectors.md, and for each
statement with hypotheses a witness that meets them all. -/

namespace Sys2Proof.Tests

open Sys2Proof Sys2Proof.Machine

/-! ## Helpers -/

/-- The next state of an outcome, if it is one. -/
def nextOf (o : Host.Outcome State Fault Refusal) : Option State :=
  match o with
  | .next t => some t
  | .fault _ => none
  | .refused _ => none

/-- The refusal of an outcome, if it is one. -/
def refusalOf (o : Host.Outcome State Fault Refusal) : Option Refusal :=
  match o with
  | .next _ => none
  | .fault _ => none
  | .refused r => some r

/-- The default instance under `BUSY`. -/
def busyAt (d : BitVec 1) (r : Nat) (ph : Phase) (b : Block) (k : Key) : State :=
  { State.reset with run := .busy, dir := d, ridx := r, phase := ph, block := b, keyr := k }

/-- The default instance with a command on the ports and `start` raised. -/
def presented (run : RunState) (c : BitVec 1) (b : Block) (k : Key) : State :=
  { State.reset with run := run, startPort := true, cmdPort := c, dinPort := b, keyPort := k }

/-- The default instance with a finished command. -/
def finished : State :=
  { State.reset with run := .done, ridx := 2, phase := .p2, block := 0b110100000#9 }

/-- An instance of one round with the default tables. -/
def oneRound : Instance := ⟨1, defaultFwd, invertTable defaultFwd, by decide⟩

/-! ## The checks refuse what is ill formed -/

theorem test_rounds_zero_refused : roundsOk 0 = false := by decide
theorem test_table_short_refused : tableLengthOk [4, 0, 7, 3, 5, 1, 2] = false := by decide
theorem test_table_entry_eight_refused : tableRangeOk [4, 0, 7, 3, 5, 1, 2, 8] = false := by decide
theorem test_table_repeated_entry_refused : tableDistinctOk [4, 0, 7, 3, 5, 1, 2, 4] = false := by decide
theorem test_port_value_512_refused : portValueOk 512 = false := by decide
theorem test_position_0_and_10_refused : positionOk 0 = false ∧ positionOk 10 = false := by decide
theorem test_constants_of_wrong_inverse_refused : constantsOk 3 defaultFwd defaultFwd = false := by decide

/-- Each refusal of construction is met (R10, R13). -/
theorem test_build_refusals :
    buildInstance 0 [4, 0, 7, 3, 5, 1, 2, 6] = .error .zeroRounds ∧
    buildInstance 3 [4, 0, 7, 3, 5, 1, 2] = .error .notEightEntries ∧
    buildInstance 3 [4, 0, 7, 3, 5, 1, 2, 8] = .error .entryOutOfRange ∧
    buildInstance 3 [4, 0, 7, 3, 5, 1, 2, 4] = .error .notDistinct := ⟨rfl, rfl, rfl, rfl⟩

/-- Witness of ConstructionChecksTheConstants: the default configuration is built. -/
theorem test_build_default : buildInstance 3 [4, 0, 7, 3, 5, 1, 2, 6] = .ok defaultInstance := by rfl

/-- Witness of ConstructionChecksTheConstants: another permutation table, at the least round count. -/
theorem test_build_alternate : ∃ k, buildInstance 1 [7, 6, 5, 4, 3, 2, 1, 0] = .ok k ∧ k.rounds = 1 :=
  ⟨_, rfl, rfl⟩

/-! ## Codes, written out from 30_encoding.md R56 -/

theorem test_decode_enc : decode (.c 0b0#1) = .enc := by decide
theorem test_decode_dec : decode (.c 0b1#1) = .dec := by decide
theorem test_decode_kmix : decode (.u 0b00#2) = .kmix := by decide
theorem test_decode_perm : decode (.u 0b01#2) = .perm := by decide
theorem test_decode_subf : decode (.u 0b10#2) = .subf := by decide
theorem test_decode_subi : decode (.u 0b11#2) = .subi := by decide

/-- Words of the opcode table at their exact width; a bit above it is refused. -/
theorem test_decode_table_words :
    decodeTableWord 1 0 = some .enc ∧ decodeTableWord 1 1 = some .dec ∧ decodeTableWord 1 2 = none ∧
    decodeTableWord 2 0 = some .kmix ∧ decodeTableWord 2 1 = some .perm ∧
    decodeTableWord 2 2 = some .subf ∧ decodeTableWord 2 3 = some .subi ∧ decodeTableWord 2 4 = none := by
  decide

/-- Words of the opcode table at a whole byte (log entry 10). -/
theorem test_decode_table_bytes :
    decodeTableWord 8 0 = some .enc ∧ decodeTableWord 8 1 = some .dec ∧
    decodeTableWord 8 2 = some .subf ∧ decodeTableWord 8 3 = some .subi ∧ decodeTableWord 8 4 = none := by
  decide

theorem test_decode_error_names_the_word : decodeNat .U 4 = .error (.tooWide .U 4) := by rfl

/-! ## The operations, with the values of spec/95_test_vectors.md -/

/-- KMIX, first row of its table. -/
theorem test_kmix_first_step_of_v4 :
    (nextOf (exec .kmix (busyAt 0 0 .p0 0b010000001 0b011000101))).map (·.block) = some 0b001000100 := by decide

/-- KMIX, no carry between bits. -/
theorem test_kmix_no_carry :
    (nextOf (exec .kmix (busyAt 0 0 .p0 0b100000000 0b000000001))).map (·.block) = some 0b100000001 := by decide

/-- SUBF, vector V1 of the source. -/
theorem test_subf_v1 :
    (nextOf (exec .subf (busyAt 0 0 .p1 0b110000011 0))).map (·.block) = some 0b010100011 := by decide

/-- SUBF, three different lanes. -/
theorem test_subf_three_lanes :
    (nextOf (exec .subf (busyAt 0 0 .p1 0b001010011 0))).map (·.block) = some 0b000111011 := by decide

/-- SUBI, three different lanes. -/
theorem test_subi_three_lanes :
    (nextOf (exec .subi (busyAt 1 0 .p1 0b100101110 0))).map (·.block) = some 0b000100111 := by decide

/-- SUBI, V1 undone. -/
theorem test_subi_undoes_v1 :
    (nextOf (exec .subi (busyAt 1 0 .p1 0b010100011 0))).map (·.block) = some 0b110000011 := by decide

/-- PERM, vector V2 of the source. -/
theorem test_perm_v2 :
    (nextOf (exec .perm (busyAt 0 0 .p2 0b100010110 0))).map (·.block) = some 0b101011000 := by decide

/-- PERM, a single bit. -/
theorem test_perm_bit_5_to_7 :
    (nextOf (exec .perm (busyAt 0 0 .p2 0b000100000 0))).map (·.block) = some 0b010000000 := by decide

/-- ENC, protocol vector T2. -/
theorem test_enc_start_t2 :
    (nextOf (step (presented .idle 0 0b010000001 0b011000101))).map
      (fun t => (t.run, t.dir, t.block, t.keyr, t.ridx, t.phase)) =
    some (.busy, 0, 0b010000001, 0b011000101, 0, .p0) := by decide

/-- ENC of the source's key-recovery example, ROUNDS = 3 (R80). -/
theorem test_enc_v4 : encFun defaultInstance 0b010000001 0b011000101 = 0b110100000 := by decide

/-- DEC, protocol vector T7. -/
theorem test_dec_start_t7 :
    (nextOf (step (presented .done 1 0b110100000 0b011000101))).map
      (fun t => (t.run, t.done, t.dir, t.block, t.ridx, t.phase)) =
    some (.busy, false, 1, 0b110100000, 0, .p0) := by decide

/-- DEC, a row of the table for ROUNDS = 3. -/
theorem test_dec_v4 : decFun defaultInstance 0b101010101 0b000000001 = 0b010111001 := by decide

/-- ENC and DEC at ROUNDS = 1. -/
theorem test_one_round : encFun oneRound 0b000000001 0b100000000 = 0b001100000 ∧
    decFun oneRound 0b000000001 0b100000000 = 0b100001101 := by decide

/-! ## The steps of the machine -/

/-- Protocol vector T3. -/
theorem test_step_t3 :
    (nextOf (step (busyAt 0 0 .p0 0b010000001 0b011000101))).map
      (fun t => (t.block, t.ridx, t.phase, t.run)) = some (0b001000100, 0, .p1, .busy) := by decide

/-- Protocol vector T4: a START under BUSY changes no register. -/
theorem test_start_under_busy_t4 :
    (nextOf (step { busyAt 0 0 .p1 0b001000100 0b011000101 with
        startPort := true, cmdPort := 1, dinPort := 0b111111111, keyPort := 0 })).map
      (fun t => (t.block, t.keyr, t.dir, t.ridx, t.phase, t.run)) =
    some (0b001000100, 0b011000101, 0, 0, .p1, .busy) := by decide

/-- The last step of the worked example of 44_encode.md. -/
theorem test_last_step_of_enc :
    (nextOf (step (busyAt 0 2 .p2 0b101100101 0b011000101))).map
      (fun t => (t.dout, t.ridx, t.phase, t.busy, t.done)) = some (some 0b110100000, 2, .p2, false, true) := by
  decide

/-- Step 4 of the worked example of 45_decode.md: PERM opens a round that is not the first. -/
theorem test_round_two_of_dec :
    (nextOf (step (busyAt 1 1 .p0 0b111000001 0b011000101))).map
      (fun t => (t.block, t.ridx, t.phase)) = some (0b100100101, 1, .p1) := by decide

/-- Protocol vector T8: RESET in the middle of a command, with a START beside it. -/
theorem test_reset_t8 :
    (nextOf (step { busyAt 0 0 .p1 0b001000100 0b011000101 with resetPort := true, startPort := true })).map
      (fun t => (t.run, t.dir, t.ridx, t.phase)) = some (.idle, 0, 0, .p0) ∧
    (nextOf (step { busyAt 0 0 .p1 0b001000100 0b011000101 with resetPort := true, startPort := true })).map
      (fun t => (t.dout.isNone, t.startPort)) = some (true, false) := by decide

/-- Protocol vectors T6 and T9: the result under DONE, no value under BUSY. -/
theorem test_dout_t6_t9 :
    finished.dout = some 0b110100000 ∧ (busyAt 0 0 .p1 0b001000100 0).dout = none := by decide

/-- In a state that no run reaches, past the last round, the engine's step is refused by name. -/
theorem test_sequencer_outside_table :
    refusalOf (step (busyAt 0 3 .p0 0 0)) = some .sequencerOutsideTable := by decide

/-- The host's interface runs the same step: a command presented after reset is accepted. -/
theorem test_core_runs_the_step :
    (nextOf (Sys2Proof.core.step (State.reset.withFetchWord 1 0))).map (·.run) = some .busy := by decide

/-- Every operation placed after reset is run by the next step (log entry 11). -/
theorem test_placed_micro_operations :
    (nextOf (step (State.reset.withFetchWord 2 0))).map (·.block) = some (0b101010101 ^^^ 0b010101010) ∧
    (nextOf (step (State.reset.withFetchWord 2 1))).map (·.block) = some 0b101010101 ∧
    (nextOf (step (State.reset.withFetchWord 2 2))).map (·.block) = some 0b001111001 ∧
    (nextOf (step (State.reset.withFetchWord 2 3))).map (·.block) = some 0b100110100 := by decide

/-! ## Bit utilities and host software -/

/-- The table of `get_bit` in 95_test_vectors.md, and its refusals. -/
theorem test_get_bit :
    getBit 0b100010110 1 = some 1 ∧ getBit 0b100010110 2 = some 0 ∧ getBit 0b100010110 5 = some 1 ∧
    getBit 0b100010110 9 = some 0 ∧ getBit 0b000000001 9 = some 1 ∧ getBit 0b100010110 0 = none ∧
    getBit 0b100010110 10 = none := by decide

/-- The groups in 95_test_vectors.md. -/
theorem test_groups : hi 0b100010110 = 0b100 ∧ mid 0b100010110 = 0b010 ∧ lo 0b100010110 = 0b110 ∧
    join 0b100 0b010 0b110 = 0b100010110 := by decide

/-- A number of 512 is refused and 511 is not. -/
theorem test_port_word : portWord 511 = .ok 0b111111111 ∧ portWord 512 = .error (.outOfRange 512) := ⟨rfl, rfl⟩

/-- Host vectors H2, H3 and H4. -/
theorem test_search_key_h2 :
    searchKey defaultInstance [0b010000000, 0b011000101] [(0b010000001, 0b110100000)] = .ok 0b011000101 := by rfl

theorem test_search_key_h3 :
    searchKey defaultInstance [0b010000000, 0b000000000] [(0b010000001, 0b110100000)] = .error .keyNotFound := by
  rfl

theorem test_search_key_h4 :
    searchKey defaultInstance [0b110000000, 0b011000101] [(0b010000001, 0b110100000)] = .ok 0b110000000 := by rfl

/-- Entries of the bias table of 46_host_software.md R100. -/
theorem test_bias : bias defaultFwd 1 4 = 2 ∧ bias defaultFwd 4 1 = 4 ∧ bias defaultFwd 6 1 = 8 := by decide

/-- An approximation over plaintext bits 8, 1 (positions 1, 8) and ciphertext bit 8, by hand: for the pair
100000010, 110100000 it is 1 xor 1 xor 1, and for 000000010, 010100000 it is 1 xor 0 xor 0 xor 0. -/
theorem test_approximation_value :
    (Approximation.mk [1, 8] [1]).value (0b100000010, 0b110100000) = some 1 ∧
    (Approximation.mk [1, 8] [1]).value (0b000000010, 0b010100000) = some 1 ∧
    (Approximation.mk [1, 8] [1]).value (0b100000010, 0b010100000) = some 0 := by decide

/-! ## Witnesses: the hypotheses of each statement are met together -/

theorem witness_StepRunsThePresentedCommand :
    (presented .idle 1 5 6).resetPort = false ∧ (presented .idle 1 5 6).startPort = true ∧
    decode (.c (presented .idle 1 5 6).cmdPort) = .dec := by decide

theorem witness_StepRunsTheIssuedMicroOperation :
    (busyAt 1 1 .p0 5 6).resetPort = false ∧ (busyAt 1 1 .p0 5 6).startPort = false ∧
    (busyAt 1 1 .p0 5 6).run = .busy ∧ roundTable 1 3 1 .p0 = some (.perm, .goto 1 .p1) ∧
    roundTable 0 3 2 .p2 = some (.kmix, .complete) ∧
    decode (encode .perm) = .perm := by decide

/-- One state for each of the four rows, the rounds at their boundaries. -/
theorem witness_EncodeStepsFollowTheTable :
    [busyAt 0 0 .p0 5 6, busyAt 0 2 .p1 5 6, busyAt 0 1 .p2 5 6, busyAt 0 2 .p2 5 6].all (fun s =>
      s.resetPort == false && s.startPort == false && s.run == .busy && s.dir == 0 &&
        decide (s.ridx < s.inst.rounds)) = true ∧
    (busyAt 0 1 .p2 5 6).ridx < (busyAt 0 1 .p2 5 6).inst.rounds - 1 ∧
    (busyAt 0 2 .p2 5 6).ridx = (busyAt 0 2 .p2 5 6).inst.rounds - 1 := by decide

/-- One state for each of the five rows, the rounds at their boundaries. -/
theorem witness_DecodeStepsFollowTheTable :
    [busyAt 1 0 .p0 5 6, busyAt 1 1 .p0 5 6, busyAt 1 2 .p1 5 6, busyAt 1 1 .p2 5 6, busyAt 1 2 .p2 5 6].all
      (fun s => s.resetPort == false && s.startPort == false && s.run == .busy && s.dir == 1 &&
        decide (s.ridx < s.inst.rounds)) = true ∧
    (busyAt 1 0 .p0 5 6).ridx = 0 ∧ 0 < (busyAt 1 1 .p0 5 6).ridx ∧
    (busyAt 1 1 .p2 5 6).ridx < (busyAt 1 1 .p2 5 6).inst.rounds - 1 ∧
    (busyAt 1 2 .p2 5 6).ridx = (busyAt 1 2 .p2 5 6).inst.rounds - 1 := by decide

/-- States of the default table for each corner case of the transforms. -/
theorem witness_transform_corner_cases :
    (busyAt 0 0 .p0 5 0).keyr = 0 ∧ (busyAt 0 0 .p0 5 0b111111111).keyr = 0b111111111#9 ∧
    (busyAt 0 0 .p0 5 5).block = (busyAt 0 0 .p0 5 5).keyr ∧
    (busyAt 0 0 .p0 0b010000001 0b011000101).block = 0b010000001#9 ∧
    (busyAt 0 0 .p0 0b010000001 0b011000101).keyr = 0b011000101#9 ∧
    (busyAt 0 0 .p1 0 6).inst.sboxFwd = #v[4, 0, 7, 3, 5, 1, 2, 6] ∧ (busyAt 0 0 .p1 0 6).block = 0 ∧
    (busyAt 0 0 .p1 0b111111111 6).block = 0b111111111#9 ∧
    (busyAt 0 0 .p1 0b011011011 6).block = 0b011011011#9 ∧
    (busyAt 0 0 .p1 0b110000011 6).block = 0b110000011#9 ∧
    (busyAt 1 0 .p1 0b010100011 6).block = 0b010100011#9 := by decide

/-- KeyMixUndoesItself, SubstitutionsUndoEachOther and ConstantsNeverChange: each operation answers. -/
theorem witness_exec_answers :
    (∃ t, exec .kmix State.reset = .next t) ∧ (∃ t, exec .subf State.reset = .next t) ∧
    (∃ t, exec .subi State.reset = .next t) ∧ (∃ t, step State.reset = .next t) ∧
    ∃ t, act .reset State.reset = .next t := ⟨⟨_, rfl⟩, ⟨_, rfl⟩, ⟨_, rfl⟩, ⟨_, rfl⟩, ⟨_, rfl⟩⟩

theorem witness_AcceptedStartLoadsTheCommand :
    ((presented .idle 0 5 6).resetPort = false ∧ (presented .idle 0 5 6).startPort = true ∧
      (presented .idle 0 5 6).run = .idle) ∧
    (presented .done 1 5 6).resetPort = false ∧ (presented .done 1 5 6).startPort = true ∧
      (presented .done 1 5 6).run = .done := by decide

/-- StartUnderBusyIsIgnored and IgnoredStartIsNotRemembered. -/
theorem witness_StartUnderBusy :
    (presented .busy 0 5 6).run = .busy ∧ (presented .busy 0 5 6).resetPort = false ∧
    (presented .busy 0 5 6).startPort = true := by decide

/-- EncodeCommandComputesEnc, DecodeCommandComputesDec, MachineRoundTrip, EngineAtRestStays and, with the two
states as the two histories, ResultDependsOnTheCommandOnly: an idle and a finished engine. -/
theorem witness_engine_at_rest :
    (State.reset.resetPort = false ∧ State.reset.startPort = false ∧ State.reset.run = .idle) ∧
    (finished.resetPort = false ∧ finished.startPort = false ∧ finished.run = .done) ∧
    State.reset.inst = finished.inst := by decide

/-- The least and the greatest number of steps before the last one. -/
theorem witness_CommandIsBusyUntilItsLastStep :
    State.reset.run = .idle ∧ State.reset.resetPort = false ∧ State.reset.startPort = false ∧
    0 < 3 * State.reset.inst.rounds ∧ 8 < 3 * State.reset.inst.rounds := by decide

/-- MicroOperationsOfEnc, MicroOperationsOfDec and DecUndoesEncInReverse at one round and at two. -/
theorem witness_commandOps :
    commandOps 0 1 = [.kmix, .subf, .kmix] ∧ commandOps 1 1 = [.kmix, .subi, .kmix] ∧
    commandOps 0 2 = [.kmix, .subf, .perm, .kmix, .subf, .kmix] ∧
    commandOps 1 2 = [.kmix, .subi, .kmix, .perm, .subi, .kmix] := by decide

theorem witness_OneRoundHasNoPermutation : oneRound.rounds = 1 := by decide

theorem witness_ResetFromAnyState :
    ({ busyAt 0 1 .p1 5 6 with resetPort := true, startPort := true } : State).resetPort = true := by decide

/-- A host that presents a START and drives the ports in the middle of a command of one round. -/
def meddling : List Action :=
  [.engine, .start 1 7 7, .engine, .drive 1 0 0, .start 0 3 3, .engine]

theorem witness_HostCannotDisturbACommand :
    (State.resetOf oneRound).resetPort = false ∧ (State.resetOf oneRound).startPort = false ∧
    (State.resetOf oneRound).run = .idle ∧ Action.reset ∉ meddling ∧
    meddling.count .engine = 3 * (State.resetOf oneRound).inst.rounds ∧
    meddling.getLast? = some .engine := by decide

/-- The least number of engine steps, and one short of the command's. -/
theorem witness_CommandKeepsItsKey :
    (State.resetOf oneRound).run = .idle ∧ Action.reset ∉ [Action.drive 1 0 0] ∧
    [Action.drive 1 0 0].count .engine = 0 ∧ Action.reset ∉ meddling.dropLast ∧
    meddling.dropLast.count .engine = 2 ∧ 2 < 3 * (State.resetOf oneRound).inst.rounds := by decide

/-- PortsAreReadOnlyByStart: without a START, with one under BUSY, and with one at rest that a RESET beats. -/
theorem witness_PortsAreReadOnlyByStart :
    ((busyAt 0 0 .p0 5 6).startPort = false ∧ ∃ t, step (busyAt 0 0 .p0 5 6) = .next t) ∧
    ((presented .busy 0 5 6).run = .busy ∧ ∃ t, step (presented .busy 0 5 6) = .next t) ∧
    ({ presented .idle 0 5 6 with resetPort := true } : State).resetPort = true ∧
    ∃ t, step { presented .idle 0 5 6 with resetPort := true } = .next t :=
  ⟨⟨rfl, _, rfl⟩, ⟨rfl, _, rfl⟩, rfl, _, rfl⟩

theorem witness_SequenceDoesNotDependOnData :
    (busyAt 0 0 .p0 5 6).startPort = false ∧ (busyAt 0 0 .p0 5 6).resetPort = false ∧
    ∃ t, steps 2 (busyAt 0 0 .p0 5 6) = .next t := ⟨rfl, rfl, _, rfl⟩

/-- StepKeepsTheInvariant and MachineNeverStops: states of the invariant that are idle, under way in the last
round, and finished. -/
theorem witness_ControlInv :
    ControlInv State.reset ∧ ControlInv (busyAt 1 2 .p2 5 6) ∧ ControlInv finished ∧
    (∃ t, step (busyAt 1 2 .p2 5 6) = .next t) := by
  refine ⟨?_, ?_, ?_, _, rfl⟩ <;> (unfold ControlInv; decide)

/-- PlacedWordIsRun: the instance after reset has room for PERM. -/
theorem witness_PlacedWordIsRun :
    (Instr.perm = .perm → 2 ≤ State.reset.inst.rounds) ∧ Instr.perm.format = .U ∧ Instr.enc.format = .C := by
  decide

/-- HostCallRefusesWideNumbers: 511 is taken and 512 refused, on each side. -/
theorem witness_HostCallRefusesWideNumbers :
    (∃ r, hostCall defaultInstance 0 511 511 = .ok r) ∧ (∃ e, hostCall defaultInstance 0 512 0 = .error e) ∧
    ∃ e, hostCall defaultInstance 1 0 512 = .error e := ⟨⟨_, rfl⟩, ⟨_, rfl⟩, _, rfl⟩

/-- SearchKeyReturnsTheFirstMatch and SearchKeyFailsWithoutAMatch: a non-empty sequence of pairs, made under a
key that is a candidate. -/
theorem witness_searchKey :
    [((0b010000001 : Block), (0b110100000 : Block))] ≠ [] ∧
    (0b011000101 : Key) ∈ ([0b010000000, 0b011000101] : List Key) ∧
    ∀ pc ∈ [((0b010000001 : Block), (0b110100000 : Block))],
      pc.2 = encFun defaultInstance pc.1 0b011000101 := by
  refine ⟨by simp, by simp, fun pc h => ?_⟩
  rw [List.mem_singleton.mp h]
  decide

/-- CollectorPairsAndCounts: positions at both ends of their range, and one past each end. -/
theorem witness_CollectorPairsAndCounts :
    (∃ st, collect defaultInstance 5 [⟨[1, 9], [1, 9]⟩] [0, 511] = some st ∧ st.pairs.length = 2) ∧
    ([0, 511] : List Block) ≠ [] ∧ collect defaultInstance 5 [⟨[0], [1]⟩] [0] = none ∧ collect defaultInstance 5 [⟨[1], [10]⟩] [0] = none :=
  ⟨⟨_, rfl, rfl⟩, by simp, rfl, rfl⟩

end Sys2Proof.Tests
end

/-! ## Construction of an instance and the tables' contents (00_scope.md R10 to R13) -/

namespace Sys2Proof.Machine

/-- What is built has passed the four checks: each refusal of `buildInstance` is the failure of one of them. -/
theorem checks_of_buildInstance {rounds : Nat} {entries : List Nat} {k : Instance}
    (h : buildInstance rounds entries = .ok k) :
    1 ≤ rounds ∧ entries.length = 8 ∧ (∀ e ∈ entries, e < 8) ∧ entries.Nodup := by
  simp only [buildInstance] at h
  split_ifs at h with hrounds hlength hrange hdistinct
  exact ⟨by simpa [roundsOk, Nat.one_le_iff_ne_zero] using hrounds, by simpa [tableLengthOk] using hlength,
    by simpa [tableRangeOk] using hrange, by simpa [tableDistinctOk] using hdistinct⟩

/-- The checks of R10 and R13 decide construction: `buildInstance` refuses nothing else. -/
theorem exists_buildInstance_eq_ok_iff (rounds : Nat) (entries : List Nat) :
    (∃ k, buildInstance rounds entries = .ok k) ↔
      1 ≤ rounds ∧ entries.length = 8 ∧ (∀ e ∈ entries, e < 8) ∧ entries.Nodup := by
  constructor
  · rintro ⟨k, h⟩
    exact checks_of_buildInstance h
  · rintro ⟨hrounds, hlength, hrange, hdistinct⟩
    exact ⟨_, buildInstance_ok hrounds hlength hrange hdistinct⟩

/-- A built instance has the round count and the table it was built from. -/
theorem rounds_and_sboxFwd_of_buildInstance {rounds : Nat} {entries : List Nat} {k : Instance}
    (h : buildInstance rounds entries = .ok k) : k.rounds = rounds ∧ k.sboxFwd = tableOf entries := by
  obtain ⟨hrounds, hlength, hrange, hdistinct⟩ := checks_of_buildInstance h
  rw [buildInstance_ok hrounds hlength hrange hdistinct] at h
  cases h
  exact ⟨rfl, rfl⟩

/-- A list that has passed the checks of R13 is not changed by its 3-bit form: each entry is the number given. -/
theorem getElem?_eq_tableOf_read {entries : List Nat} (hlength : entries.length = 8)
    (hrange : ∀ e ∈ entries, e < 8) (a : Group) :
    entries[a.toNat]? = some (Table.read (tableOf entries) a).toNat := by
  have ha : a.toNat < entries.length := by rw [hlength]; exact a.isLt
  have hentry : entries[a.toNat] < 2 ^ 3 := hrange _ (List.getElem_mem ha)
  rw [tableOf_read, List.getD_eq_getElem _ _ ha, BitVec.toNat_ofNat, Nat.mod_eq_of_lt hentry,
    List.getElem?_eq_getElem ha]

/-- Settles O48: the checks decide construction, and `Instance.inv_fwd` holds of every instance. -/
theorem constructionChecksTheConstants : Obligations.ConstructionChecksTheConstants := by
  intro rounds entries
  refine ⟨exists_buildInstance_eq_ok_iff rounds entries, fun k hk => ?_⟩
  obtain ⟨-, hlength, hrange, -⟩ := checks_of_buildInstance hk
  obtain ⟨hrounds, hfwd⟩ := rounds_and_sboxFwd_of_buildInstance hk
  refine ⟨hrounds, fun a => ?_, k.inv_fwd⟩
  rw [hfwd]
  exact getElem?_eq_tableOf_read hlength hrange a

/-- The inverse that the search of `entryIndex` computes from the table of R11 is the one of 00_scope.md,
Implementation parameters. -/
theorem invertTable_defaultFwd : invertTable defaultFwd = #v[1, 5, 6, 3, 0, 4, 7, 2] := by
  decide

/-- Settles O49: the forward table and its reads are the definition's; the inverse is computed. -/
theorem defaultTables : Obligations.DefaultTables :=
  ⟨⟨rfl, rfl, rfl⟩, invertTable_defaultFwd⟩

end Sys2Proof.Machine

/-! ## State: the invariant of the control state (10_state.md R23, R33; 70_reset_and_hazards.md R122, R128) -/

namespace Sys2Proof.Machine

/-- Of `ControlInv` only the clause of the current run state says anything: here that of `IDLE`. -/
theorem controlInv_of_idle {s : State} (hrun : s.run = .idle) (hdir : s.dir = 0) (hridx : s.ridx = 0)
    (hphase : s.phase = .p0) : ControlInv s :=
  ⟨fun _ => ⟨hdir, hridx, hphase⟩, by simp [hrun], by simp [hrun]⟩

theorem controlInv_of_busy {s : State} (hrun : s.run = .busy) (hridx : s.ridx < s.inst.rounds) : ControlInv s :=
  ⟨by simp [hrun], fun _ => hridx, by simp [hrun]⟩

theorem controlInv_of_done {s : State} (hrun : s.run = .done) (hridx : s.ridx + 1 = s.inst.rounds)
    (hphase : s.phase = .p2) : ControlInv s :=
  ⟨by simp [hrun], by simp [hrun], fun _ => ⟨hridx, hphase⟩⟩

theorem controlInv_resetEngine (s : State) : ControlInv (resetEngine s) :=
  controlInv_of_idle rfl rfl rfl rfl

/-- An accepted START begins at round 0, which is below `ROUNDS` (R9). -/
theorem ControlInv.startCommand {s : State} (d : BitVec 1) (h : ControlInv s) : ControlInv (startCommand d s) := by
  rcases startCommand_cases d s with ⟨_, e⟩ | ⟨_, e⟩ <;> rw [e]
  · exact h
  · exact controlInv_of_busy rfl s.inst.rounds_pos

/-- The rows of a transition table stay below `ROUNDS`, and only the last row of the last round completes. -/
theorem controlInv_advance {s : State} {op : Instr} {nxt : Next} (b : Block) (hrun : s.run = .busy)
    (hrow : s.row = some (op, nxt)) : ControlInv (advance nxt (s.writeBlock b)) := by
  obtain ⟨hlt, ⟨-, rfl⟩ | ⟨-, rfl⟩ | ⟨-, hnext, rfl⟩ | ⟨hphase, hlast, rfl⟩⟩ := roundTable_next hrow
  · exact controlInv_of_busy hrun hlt
  · exact controlInv_of_busy hrun hlt
  · exact controlInv_of_busy hrun hnext
  · exact controlInv_of_done rfl hlast hphase

/-- Settles O41, by the four kinds of step. -/
theorem stepKeepsTheInvariant : Obligations.StepKeepsTheInvariant := by
  intro s t hinv hstep
  obtain rfl | rfl | ⟨-, hrun, op, nxt, b, hrow, -, rfl⟩ | ⟨-, -, rfl⟩ := step_next_cases hstep
  · exact controlInv_resetEngine _
  · have hlowered : ControlInv (lowerRequests s) := hinv
    exact hlowered.startCommand _
  · exact controlInv_advance b hrun hrow
  · exact hinv

end Sys2Proof.Machine

/-! ## State: the constants (10_state.md R18) -/

namespace Sys2Proof.Machine

@[simp] theorem advance_inst (nxt : Next) (s : State) : (advance nxt s).inst = s.inst := by
  cases nxt <;> rfl

theorem inst_of_exec {i : Instr} {s t : State} (h : exec i s = .next t) : t.inst = s.inst := by
  cases i <;> cases h
  case enc | dec => exact startCommand_inst _ s
  case kmix | perm | subf | subi => rfl

theorem inst_of_step {s t : State} (h : step s = .next t) : t.inst = s.inst := by
  obtain rfl | rfl | ⟨-, -, _, _, _, -, -, rfl⟩ | ⟨-, -, rfl⟩ := step_next_cases h <;> simp

/-- The host's part of an action writes ports only; what remains is a step or nothing. -/
theorem inst_of_act {a : Action} {s t : State} (h : act a s = .next t) : t.inst = s.inst := by
  cases a with
  | reset | start | engine => exact (inst_of_step h :)
  | drive c x k => cases h; rfl

/-- Settles O44. -/
theorem constantsNeverChange : Obligations.ConstantsNeverChange :=
  ⟨fun _ _ _ => inst_of_exec, fun _ _ => inst_of_step, fun _ _ _ => inst_of_act⟩

end Sys2Proof.Machine

/-! ## State: the numbers a host presents (10_state.md R32) -/

namespace Sys2Proof.Machine

theorem portWord_of_lt {n : Nat} (h : n < 512) : portWord n = .ok (BitVec.ofNat 9 n) := by
  simp [portWord, portValueOk, h]

theorem portWord_of_le {n : Nat} (h : 512 ≤ n) : portWord n = .error (.outOfRange n) := by
  simp [portWord, portValueOk, h]

theorem hostCall_of_lt {i : Instance} {d : BitVec 1} {b k : Nat} (hb : b < 512) (hk : k < 512) :
    hostCall i d b k = .ok (cipherFun i d (BitVec.ofNat 9 b) (BitVec.ofNat 9 k)).toNat := by
  simp [hostCall, portWord_of_lt hb, portWord_of_lt hk]

/-- The block is looked at first, so a wide key is met only behind a block that fits. -/
theorem hostCall_of_le {i : Instance} {d : BitVec 1} {b k : Nat} (h : 512 ≤ b ∨ 512 ≤ k) :
    ∃ e, hostCall i d b k = .error e := by
  by_cases hb : 512 ≤ b
  · exact ⟨.outOfRange b, by simp [hostCall, portWord_of_le hb]⟩
  · exact ⟨.outOfRange k, by
      simp [hostCall, portWord_of_lt (Nat.lt_of_not_le hb), portWord_of_le (h.resolve_left hb)]⟩

/-- Settles O50. -/
theorem hostCallRefusesWideNumbers : Obligations.HostCallRefusesWideNumbers := by
  intro i d b k
  refine ⟨fun ⟨hb, hk⟩ => ⟨_, hostCall_of_lt hb hk, BitVec.isLt _, ?_⟩, hostCall_of_le⟩
  rw [cipherFun]

end Sys2Proof.Machine

/-! ## State: a command under way (10_state.md R23, R30, R33; 70_reset_and_hazards.md R125 to R128)

`UnderWay i d x k n s` is the one invariant of this part: it holds with `n = 0` after an accepted START, each
engine step but the last counts `n` up by one, and no act of the host short of RESET changes it. -/

namespace Sys2Proof.Machine

/-- The block a micro-operation makes of a block, under the constants and the key (R66, R70, R71, R76). A
command is no micro-operation. -/
def opBlock (i : Instance) (k : Key) (op : Instr) (b : Block) : Block :=
  match op with
  | .kmix => keyMix b k
  | .perm => permute b
  | .subf => substitute i b false
  | .subi => substitute i b true
  | .enc => b
  | .dec => b

/-- The phase of a command's step number `n` (R23). -/
def phaseAt (n : Nat) : Phase :=
  match n % 3 with
  | 0 => .p0
  | 1 => .p1
  | _ => .p2

/-- Where the sequencer goes in a command's step number `n` (R81, R90). -/
def nextAt (rounds n : Nat) : Next :=
  if n + 1 = 3 * rounds then .complete else .goto ((n + 1) / 3) (phaseAt (n + 1))

/-- `BLOCK` after the first `n` micro-operations of a command on the operands `x` and `k`. -/
def blockAfter (i : Instance) (d : BitVec 1) (x : Block) (k : Key) : Nat → Block
  | 0 => x
  | n + 1 =>
    match roundTable d i.rounds (n / 3) (phaseAt n) with
    | some (op, _) => opBlock i k op (blockAfter i d x k n)
    | none => blockAfter i d x k n

/-- An accepted command with code `d`, operands `x` and `k`, and `n` micro-operations behind it. -/
structure UnderWay (i : Instance) (d : BitVec 1) (x : Block) (k : Key) (n : Nat) (s : State) : Prop where
  quiet : Quiet s
  run : s.run = .busy
  inst : s.inst = i
  dir : s.dir = d
  keyr : s.keyr = k
  ridx : s.ridx = n / 3
  phase : s.phase = phaseAt n
  block : s.block = blockAfter i d x k n

/-! The micro-operations and the positions of a command. -/

/-- A transition table issues micro-operations only, never a command (R54). -/
theorem format_of_roundTable {d : BitVec 1} {rounds r : Nat} {ph : Phase} {op : Instr} {nxt : Next}
    (h : roundTable d rounds r ph = some (op, nxt)) : op.format = .U := by
  unfold roundTable at h
  split at h
  · obtain ⟨-, ⟨-, rfl, -⟩ | ⟨-, rfl, -⟩ | ⟨-, -, rfl, -⟩ | ⟨-, -, rfl, -⟩⟩ := encodeRound_cases h <;> rfl
  · obtain ⟨-, ⟨-, -, rfl, -⟩ | ⟨-, -, rfl, -⟩ | ⟨-, rfl, -⟩ | ⟨-, -, rfl, -⟩ | ⟨-, -, rfl, -⟩⟩ :=
      decodeRound_cases h <;> rfl

/-- `opBlock` is what `exec` writes for the operation that the datapath decodes (R54). -/
theorem exec_decode_encode_of_format_U {op : Instr} (h : op.format = .U) (s : State) :
    exec (decode (encode op)) s = .next (s.writeBlock (opBlock s.inst s.keyr op s.block)) := by
  cases op with
  | enc | dec => cases h
  | kmix | perm | subf | subi => rfl

theorem step_of_startPort {s : State} (hreset : s.resetPort = false) (hstart : s.startPort = true) :
    step s = .next (startCommand s.cmdPort (lowerRequests s)) := by
  simp [step, cycle, hreset, hstart, startStep_eq]

theorem step_of_quiet_busy {s : State} (hq : Quiet s) (hrun : s.run = .busy) : step s = engineStep s := by
  obtain ⟨hreset, hstart⟩ := hq
  simp [step, cycle, hreset, hstart, State.busy, hrun]

/-- An engine step in one equation: the micro-operation of the row, then the advance (R82, R91). -/
theorem step_of_row {s : State} {op : Instr} {nxt : Next} (hq : Quiet s) (hrun : s.run = .busy)
    (hrow : s.row = some (op, nxt)) :
    step s = .next (advance nxt (s.writeBlock (opBlock s.inst s.keyr op s.block))) := by
  have hexec := exec_decode_encode_of_format_U (format_of_roundTable hrow) s
  simp only [step_of_quiet_busy hq hrun, engineStep, hrow, hexec, advanceAfter]

@[simp] theorem phaseAt_toNat (n : Nat) : (phaseAt n).toNat = n % 3 := by
  have h : n % 3 = 0 ∨ n % 3 = 1 ∨ n % 3 = 2 := by omega
  rcases h with h | h | h <;> simp [phaseAt, h, Phase.toNat]

theorem phaseAt_eq_iff {n : Nat} {ph : Phase} : phaseAt n = ph ↔ n % 3 = ph.toNat := by
  rw [← phaseAt_toNat]
  constructor
  · rintro rfl; rfl
  · cases phaseAt n <;> cases ph <;> simp [Phase.toNat]

/-- Both tables have a row for each of a command's `3 * ROUNDS` steps, and it leads to the next one. -/
theorem exists_roundTable_at {rounds n : Nat} (d : BitVec 1) (h : n < 3 * rounds) :
    ∃ op, roundTable d rounds (n / 3) (phaseAt n) = some (op, nextAt rounds n) := by
  obtain ⟨op, nxt, hrow⟩ := roundTable_isSome (dir := d) (ph := phaseAt n) (show n / 3 < rounds by omega)
  refine ⟨op, hrow.trans ?_⟩
  have hnext := roundTable_next hrow
  simp only [phaseAt_eq_iff, Phase.toNat] at hnext
  obtain ⟨-, ⟨hph, rfl⟩ | ⟨hph, rfl⟩ | ⟨hph, hlt, rfl⟩ | ⟨hph, hlast, rfl⟩⟩ := hnext
  · have hsucc : phaseAt (n + 1) = .p1 := phaseAt_eq_iff.mpr (by simp only [Phase.toNat]; omega)
    rw [nextAt, if_neg (by omega), hsucc, show (n + 1) / 3 = n / 3 by omega]
  · have hsucc : phaseAt (n + 1) = .p2 := phaseAt_eq_iff.mpr (by simp only [Phase.toNat]; omega)
    rw [nextAt, if_neg (by omega), hsucc, show (n + 1) / 3 = n / 3 by omega]
  · have hsucc : phaseAt (n + 1) = .p0 := phaseAt_eq_iff.mpr (by simp only [Phase.toNat]; omega)
    rw [nextAt, if_neg (by omega), hsucc, show (n + 1) / 3 = n / 3 + 1 by omega]
  · rw [nextAt, if_pos (by omega)]

theorem blockAfter_succ {i : Instance} {d : BitVec 1} {x : Block} {k : Key} {n : Nat} {op : Instr} {nxt : Next}
    (h : roundTable d i.rounds (n / 3) (phaseAt n) = some (op, nxt)) :
    blockAfter i d x k (n + 1) = opBlock i k op (blockAfter i d x k n) := by
  simp [blockAfter, h]

/-! How a command begins. -/

/-- The meaning of either command is a START with its code (R53). -/
theorem exec_command {i : Instr} (hi : i = .enc ∨ i = .dec) (s : State) :
    exec i s = .next (startCommand (if i = .enc then 0 else 1) s) := by
  rcases hi with rfl | rfl <;> rfl

theorem run_ne_busy_of_atRest {s : State} (h : s.run = .idle ∨ s.run = .done) : s.run ≠ .busy := by
  rcases h with h | h <;> simp [h]

/-- An accepted START puts its command under way (R125). -/
theorem underWay_startCommand {s : State} (d : BitVec 1) (hq : Quiet s) (hrun : s.run ≠ .busy) :
    UnderWay s.inst d s.dinPort s.keyPort 0 (startCommand d s) := by
  rw [startCommand_accepted hrun]
  exact ⟨hq, rfl, rfl, rfl, rfl, rfl, rfl, rfl⟩

/-- The action START, in any state without a RESET: the ports are driven, and the START is taken. -/
theorem act_start {s : State} (hreset : s.resetPort = false) (d : BitVec 1) (x : Block) (k : Key) :
    act (.start d x k) s = .next (startCommand d (lowerRequests (drivePorts d x k s))) :=
  step_of_startPort (s := { drivePorts d x k s with startPort := true }) hreset rfl

theorem exists_act_start {s : State} (hreset : s.resetPort = false) (hrun : s.run ≠ .busy) (d : BitVec 1)
    (x : Block) (k : Key) : ∃ t, act (.start d x k) s = .next t ∧ UnderWay s.inst d x k 0 t :=
  ⟨_, act_start hreset d x k,
    underWay_startCommand (s := lowerRequests (drivePorts d x k s)) d ⟨rfl, rfl⟩ hrun⟩

/-! How it goes on: the engine's steps, and the host's acts between them. -/

section UnderWay

variable {i : Instance} {d : BitVec 1} {x : Block} {k : Key} {n : Nat} {s : State}

theorem UnderWay.ridx_lt (h : UnderWay i d x k n s) (hn : n < 3 * i.rounds) : s.ridx < i.rounds := by
  have := h.ridx
  omega

/-- The engine step of a command under way, in one equation. -/
theorem UnderWay.step_eq (h : UnderWay i d x k n s) (hn : n < 3 * i.rounds) :
    step s = .next (advance (nextAt i.rounds n) (s.writeBlock (blockAfter i d x k (n + 1)))) := by
  obtain ⟨op, hop⟩ := exists_roundTable_at d hn
  have hrow : s.row = some (op, nextAt i.rounds n) := by
    rw [State.row, h.dir, h.inst, h.ridx, h.phase, hop]
  rw [step_of_row h.quiet h.run hrow, h.inst, h.keyr, h.block, blockAfter_succ hop]

theorem UnderWay.exists_step (h : UnderWay i d x k n s) (hn : n + 1 < 3 * i.rounds) :
    ∃ t, step s = .next t ∧ UnderWay i d x k (n + 1) t := by
  refine ⟨_, h.step_eq (by omega), ?_⟩
  rw [nextAt, if_neg (by omega)]
  exact ⟨h.quiet, h.run, h.inst, h.dir, h.keyr, rfl, rfl, rfl⟩

/-- The last engine step: from then on `dout` shows the block (R128, R129). -/
theorem UnderWay.exists_step_done (h : UnderWay i d x k n s) (hn : n + 1 = 3 * i.rounds) :
    ∃ t, step s = .next t ∧ t.dout = some (blockAfter i d x k (n + 1)) := by
  refine ⟨_, h.step_eq (by omega), ?_⟩
  rw [nextAt, if_pos hn]
  rfl

theorem UnderWay.drivePorts (h : UnderWay i d x k n s) (c : BitVec 1) (x' : Block) (k' : Key) :
    UnderWay i d x k n (drivePorts c x' k' s) :=
  ⟨h.quiet, h.run, h.inst, h.dir, h.keyr, h.ridx, h.phase, h.block⟩

theorem UnderWay.lowerRequests (h : UnderWay i d x k n s) : UnderWay i d x k n (lowerRequests s) :=
  ⟨⟨rfl, rfl⟩, h.run, h.inst, h.dir, h.keyr, h.ridx, h.phase, h.block⟩

/-- Short of RESET and of the command's last step, an action counts the engine's steps up and nothing else:
a START is ignored (R126) and the ports are not read (R127). -/
theorem UnderWay.exists_act (h : UnderWay i d x k n s) {a : Action} (ha : a ≠ .reset)
    (hn : n + [a].count .engine < 3 * i.rounds) :
    ∃ t, act a s = .next t ∧ UnderWay i d x k (n + [a].count .engine) t := by
  cases a with
  | reset => exact absurd rfl ha
  | start c x' k' =>
    have hdriven := (h.drivePorts c x' k').lowerRequests
    refine ⟨_, act_start h.quiet.1 c x' k', ?_⟩
    rwa [startCommand_busy hdriven.run]
  | drive c x' k' => exact ⟨_, rfl, h.drivePorts c x' k'⟩
  | engine => exact h.exists_step hn

/-- The invariant over a run of the host's actions and engine steps, short of RESET and of the last step. -/
theorem UnderWay.exists_runActions {as : List Action} (h : UnderWay i d x k n s) (has : Action.reset ∉ as)
    (hn : n + as.count .engine < 3 * i.rounds) :
    ∃ t, runActions as s = .next t ∧ UnderWay i d x k (n + as.count .engine) t := by
  induction as generalizing n s with
  | nil => exact ⟨s, rfl, h⟩
  | cons a as ih =>
    obtain ⟨ha, has⟩ := List.ne_and_not_mem_of_not_mem_cons has
    have hcount : (a :: as).count .engine = [a].count .engine + as.count .engine :=
      List.count_append (l₁ := [a])
    rw [hcount, ← Nat.add_assoc] at hn ⊢
    obtain ⟨t, hact, ht⟩ := h.exists_act ha.symm (by omega)
    obtain ⟨u, hrun, hu⟩ := ih ht has hn
    exact ⟨u, by rw [runActions, hact]; exact hrun, hu⟩

/-- Steps of the machine are engine actions. -/
theorem runActions_replicate_engine (n : Nat) (s : State) :
    runActions (List.replicate n .engine) s = steps n s := by
  induction n generalizing s with
  | zero => rfl
  | succ n ih =>
    rw [List.replicate_succ, runActions, steps, act]
    cases step s with
    | next t => exact ih t
    | fault f => rfl
    | refused r => rfl

theorem UnderWay.exists_steps (h : UnderWay i d x k 0 s) (hn : n < 3 * i.rounds) :
    ∃ t, steps n s = .next t ∧ UnderWay i d x k n t := by
  have hrun := h.exists_runActions (as := List.replicate n .engine)
  simp only [runActions_replicate_engine, List.count_replicate_self, Nat.zero_add] at hrun
  exact hrun (by simp [List.mem_replicate]) hn

/-- A command's result is a function of its code, its operands and the constants (R30). -/
theorem UnderWay.exists_steps_done (h : UnderWay i d x k 0 s) :
    ∃ t, steps (3 * i.rounds) s = .next t ∧ t.dout = some (blockAfter i d x k (3 * i.rounds)) := by
  obtain ⟨m, hm⟩ : ∃ m, 3 * i.rounds = m + 1 := ⟨3 * i.rounds - 1, by have := i.rounds_pos; omega⟩
  obtain ⟨t, ht, hway⟩ := h.exists_steps (n := m) (by omega)
  obtain ⟨u, hu, hdout⟩ := hway.exists_step_done hm.symm
  exact ⟨u, by rw [hm, steps_add ht, steps_succ_of_next 0 hu, steps_zero], by rw [hm, hdout]⟩

end UnderWay

/-- A START and `3 * ROUNDS` engine steps, from any state at rest. -/
theorem exists_runActions_command {s : State} (hreset : s.resetPort = false) (hrun : s.run ≠ .busy)
    (d : BitVec 1) (x : Block) (k : Key) :
    ∃ u, runActions (.start d x k :: List.replicate (3 * s.inst.rounds) .engine) s = .next u ∧
      u.dout = some (blockAfter s.inst d x k (3 * s.inst.rounds)) := by
  obtain ⟨t, hact, hway⟩ := exists_act_start hreset hrun d x k
  obtain ⟨u, hsteps, hdout⟩ := hway.exists_steps_done
  exact ⟨u, by rw [runActions, hact]; exact (runActions_replicate_engine _ t).trans hsteps, hdout⟩

/-- Settles O21. -/
theorem commandIsBusyUntilItsLastStep : Obligations.CommandIsBusyUntilItsLastStep := by
  intro s i n hreset hstart hrest hi hn
  have hbegin := underWay_startCommand (if i = .enc then 0 else 1) ⟨hreset, hstart⟩ (run_ne_busy_of_atRest hrest)
  obtain ⟨u, hsteps, hu⟩ := hbegin.exists_steps hn
  have hdone : u.done = false := by simp [hu.run]
  refine ⟨_, u, exec_command hi s, hsteps, by simp [hu.run], hdone, by simp [State.dout, hdone], hu.ridx, ?_,
    hu.keyr, hu.dir⟩
  rw [hu.phase, phaseAt_toNat]

/-- Settles O34. -/
theorem commandKeepsItsKey : Obligations.CommandKeepsItsKey := by
  intro s i as hreset hstart hrest hi has hn
  have hbegin := underWay_startCommand (if i = .enc then 0 else 1) ⟨hreset, hstart⟩ (run_ne_busy_of_atRest hrest)
  obtain ⟨u, hrun, hu⟩ := hbegin.exists_runActions has (by rwa [Nat.zero_add])
  rw [Nat.zero_add] at hu
  have hridx := hu.ridx_lt hn
  exact ⟨_, u, exec_command hi s, hrun, hu.run, hu.keyr, hu.ridx, hridx⟩

/-- Settles O35: both results are the same `blockAfter`. -/
theorem resultDependsOnTheCommandOnly : Obligations.ResultDependsOnTheCommandOnly := by
  intro s s' d x k hreset _ hrest hreset' _ hrest' hinst
  obtain ⟨u, hrun, hdout⟩ := exists_runActions_command hreset (run_ne_busy_of_atRest hrest) d x k
  obtain ⟨u', hrun', hdout'⟩ := exists_runActions_command hreset' (run_ne_busy_of_atRest hrest') d x k
  exact ⟨u, u', _, hrun, hrun', hdout, by rw [hdout', hinst]⟩

end Sys2Proof.Machine

/-! ## Encoding: the opcode map (30_encoding.md R53, R54, R56 to R58)

`Code` holds exactly the code points of the two formats; `codeOf` reads a number as one of them. -/

namespace Sys2Proof

/-- Every operation has a code point, and the decoder reads it back (R56). -/
theorem decode_encode (i : Instr) : decode (encode i) = i := by
  cases i with
  | enc | dec | kmix | perm | subf | subi => rfl

/-- Every code point is assigned, and to one operation only (R56). -/
theorem encode_decode (c : Code) : encode (decode c) = c := by
  cases c with
  | c b | u b => revert b; decide

theorem decode_eq_iff {c : Code} {i : Instr} : decode c = i ↔ c = encode i := by
  constructor
  · rintro rfl
    exact (encode_decode c).symm
  · rintro rfl
    exact decode_encode i

/-- Settles O45. -/
theorem opcodeMap : Obligations.OpcodeMap :=
  ⟨rfl, rfl, rfl, rfl, rfl, rfl, decode_encode, encode_decode⟩

/-- A number's low bits as a code of a format. -/
def codeOf (f : Format) (w : Nat) : Code :=
  match f with
  | .C => .c (BitVec.ofNat 1 w)
  | .U => .u (BitVec.ofNat 2 w)

/-- A code fits the width of its format (R58). -/
theorem Code.toNat_lt (c : Code) : c.toNat < 2 ^ c.format.width := by
  cases c with
  | c b | u b => exact b.isLt

@[simp] theorem codeOf_format (f : Format) (w : Nat) : (codeOf f w).format = f := by
  cases f with
  | C | U => rfl

@[simp] theorem codeOf_toNat (f : Format) (w : Nat) : (codeOf f w).toNat = w % 2 ^ f.width := by
  cases f with
  | C | U => exact BitVec.toNat_ofNat w _

@[simp] theorem codeOf_format_toNat (c : Code) : codeOf c.format c.toNat = c := by
  cases c with
  | c b | u b => simp [codeOf, Code.format, Code.toNat]

/-- A number that fits is a code's value for one code of the format only. -/
theorem codeOf_eq_iff {f : Format} {w : Nat} {c : Code} (h : w < 2 ^ f.width) :
    codeOf f w = c ↔ c.format = f ∧ c.toNat = w := by
  constructor
  · rintro rfl
    exact ⟨codeOf_format f w, (codeOf_toNat f w).trans (Nat.mod_eq_of_lt h)⟩
  · rintro ⟨rfl, rfl⟩
    exact codeOf_format_toNat c

/-- Within the width of a format every number is a code, so none is refused (R57). -/
theorem decodeNat_of_lt {f : Format} {w : Nat} (h : w < 2 ^ f.width) :
    decodeNat f w = .ok (decode (codeOf f w)) := by
  cases f with
  | C | U => exact if_pos h

/-- Log entry 10: a wider number is refused. -/
theorem decodeNat_of_le {f : Format} {w : Nat} (h : 2 ^ f.width ≤ w) :
    decodeNat f w = .error (.tooWide f w) :=
  if_neg (Nat.not_lt.mpr h)

theorem lt_of_decodeNat_eq_ok {f : Format} {w : Nat} {i : Instr} (h : decodeNat f w = .ok i) :
    w < 2 ^ f.width := by
  by_contra hw
  rw [decodeNat_of_le (Nat.not_lt.mp hw)] at h
  cases h

/-- `decodeNat` inverts the encoder: the two agree on codes, and every code fits its format. -/
theorem decodeNat_eq_ok_iff {f : Format} {w : Nat} {i : Instr} :
    decodeNat f w = .ok i ↔ (encode i).format = f ∧ (encode i).toNat = w := by
  constructor
  · intro h
    have hw := lt_of_decodeNat_eq_ok h
    rw [decodeNat_of_lt hw, Except.ok.injEq, decode_eq_iff] at h
    exact (codeOf_eq_iff hw).mp h
  · rintro ⟨rfl, rfl⟩
    rw [decodeNat_of_lt (encode i).toNat_lt, codeOf_format_toNat, decode_encode]

/-- Settles O46. -/
theorem numbersDecodeToTheirCodeOnly : Obligations.NumbersDecodeToTheirCodeOnly := by
  intro f w
  refine ⟨fun i => decodeNat_eq_ok_iff, fun hw => ⟨_, decodeNat_of_lt hw⟩, ?_⟩
  rintro ⟨i, h⟩
  exact lt_of_decodeNat_eq_ok h

end Sys2Proof

/-! ## Bit utilities: the groups of a block and its single bits (40_bit_utilities.md R62, R64) -/

namespace Sys2Proof.Machine

theorem lo_toNat (b : Block) : (lo b).toNat = b.toNat % 8 := by
  rw [lo, BitVec.extractLsb'_toNat, Nat.shiftRight_zero]

theorem mid_toNat (b : Block) : (mid b).toNat = b.toNat / 8 % 8 := by
  rw [mid, BitVec.extractLsb'_toNat, Nat.shiftRight_eq_div_pow]

/-- The remainder that taking three bits leaves is the identity here: a block's quotient by 64 is below 8. -/
theorem hi_toNat (b : Block) : (hi b).toNat = b.toNat / 64 := by
  have hlt : b.toNat / 64 < 8 := by have := b.isLt; omega
  rw [hi, BitVec.extractLsb'_toNat, Nat.shiftRight_eq_div_pow]
  exact Nat.mod_eq_of_lt hlt

/-- Appending a group moves what stands before it one octal place up. -/
theorem append_group_toNat {w : Nat} (x : BitVec w) (g : Group) : (x ++ g).toNat = 8 * x.toNat + g.toNat := by
  rw [BitVec.toNat_append, ← Nat.shiftLeft_add_eq_or_of_lt g.isLt, Nat.shiftLeft_eq, Nat.mul_comm]

/-- Reassembly reads the three groups as octal digits (R64). -/
theorem join_toNat (h m l : Group) : (join h m l).toNat = 64 * h.toNat + 8 * m.toNat + l.toNat := by
  rw [join, append_group_toNat, append_group_toNat]
  omega

/-- Settles O14. -/
theorem groupsPartitionTheBlock : Obligations.GroupsPartitionTheBlock :=
  ⟨fun b => ⟨lo_toNat b, mid_toNat b, hi_toNat b, join_groups b⟩, join_toNat⟩

/-- `get_bit` refuses exactly the positions outside 1..9 (R62). -/
theorem getBit_eq_none_iff {b : Block} {p : Nat} : getBit b p = none ↔ p < 1 ∨ 9 < p := by
  constructor
  · intro hnone
    by_contra hp
    rw [getBit_of_position b (by omega)] at hnone
    cases hnone
  · intro hp
    have hbad : positionOk p = false := decide_eq_false (by omega)
    simp [getBit, hbad]

/-- A bit of a word as a number: the quotient by the bit's weight, modulo 2. -/
theorem ofBool_getLsbD_toNat {w : Nat} (b : BitVec w) (n : Nat) :
    (BitVec.ofBool (b.getLsbD n)).toNat = b.toNat / 2 ^ n % 2 :=
  calc (BitVec.ofBool (b.getLsbD n)).toNat
      = (b.toNat.testBit n).toNat := BitVec.toNat_ofBool _
    _ = b.toNat / 2 ^ n % 2 := Nat.toNat_testBit _ _

/-- Settles O15. -/
theorem getBitCountsFromTheMostSignificantBit : Obligations.GetBitCountsFromTheMostSignificantBit := by
  intro b p
  exact ⟨fun hp => ⟨_, getBit_of_position b hp, rfl, ofBool_getLsbD_toNat b (9 - p)⟩, getBit_eq_none_iff.mpr⟩

end Sys2Proof.Machine

/-! ## Key mixer (41_key_mixer.md R66) -/

namespace Sys2Proof.Machine

/-- The key mix acts on each bit alone: nothing is carried to the next (R66). -/
theorem keyMix_getLsbD (b : Block) (k : Key) (i : Nat) :
    (keyMix b k).getLsbD i = (b.getLsbD i ^^ k.getLsbD i) :=
  BitVec.getLsbD_xor

@[simp] theorem keyMix_zero (b : Block) : keyMix b 0 = b :=
  BitVec.xor_zero

@[simp] theorem keyMix_allOnes (b : Block) : keyMix b (BitVec.allOnes 9) = ~~~b :=
  BitVec.xor_allOnes

@[simp] theorem keyMix_self (b : Block) : keyMix b b = 0 :=
  BitVec.xor_self

/-- Settles O5: KMIX writes the key mix to `BLOCK`, whose bits and corner cases are those of `keyMix`. -/
theorem kmixXorsTheKeyIntoTheBlock : Obligations.KmixXorsTheKeyIntoTheBlock := by
  refine ⟨rfl, fun s => ⟨_, exec_kmix s, rfl, fun i _ => keyMix_getLsbD s.block s.keyr i, ?_⟩⟩
  rw [State.writeBlock_block]
  refine ⟨fun hkey => ?_, fun hkey => ?_, fun hblock => ?_, fun hblock hkey => ?_⟩
  · rw [hkey, keyMix_zero]
  · rw [hkey, ← keyMix_allOnes]; rfl
  · rw [hblock, keyMix_self]
  · rw [hblock, hkey]; rfl

end Sys2Proof.Machine

/-! ## State: writes to `BLOCK` (10_state.md R19) -/

namespace Sys2Proof.Machine

@[simp] theorem State.writeBlock_writeBlock (s : State) (a b : Block) :
    (s.writeBlock a).writeBlock b = s.writeBlock b := rfl

@[simp] theorem State.writeBlock_self (s : State) : s.writeBlock s.block = s := rfl

end Sys2Proof.Machine

/-! ## Substitution (42_substitution.md R69 to R72)

R72 is shown lane by lane for every instance; the corner cases of the inverse table then are those of the
forward table read backwards. -/

namespace Sys2Proof.Machine

/-- `substitute` as the number R69 writes. -/
theorem substitute_toNat (k : Instance) (b : Block) (inverse : Bool) :
    (substitute k b inverse).toNat =
      64 * (memRead k (spaceOf inverse) (hi b)).toNat + 8 * (memRead k (spaceOf inverse) (mid b)).toNat +
        (memRead k (spaceOf inverse) (lo b)).toNat :=
  join_toNat _ _ _

theorem block_eq_iff {a b : Block} : a = b ↔ hi a = hi b ∧ mid a = mid b ∧ lo a = lo b := by
  constructor
  · rintro rfl
    exact ⟨rfl, rfl, rfl⟩
  · rintro ⟨hhi, hmid, hlo⟩
    exact block_ext hhi hmid hlo

/-- A block is left unchanged exactly when each of its groups is. -/
theorem substitute_eq_self_iff {k : Instance} {b : Block} {inverse : Bool} :
    substitute k b inverse = b ↔
      memRead k (spaceOf inverse) (hi b) = hi b ∧ memRead k (spaceOf inverse) (mid b) = mid b ∧
        memRead k (spaceOf inverse) (lo b) = lo b := by
  rw [block_eq_iff, hi_substitute, mid_substitute, lo_substitute]

/-! The two directions undo each other (R72). -/

/-- In each lane the two tables of an instance are inverse to each other (R12, R33). -/
theorem memRead_memRead_not (k : Instance) (inverse : Bool) (g : Group) :
    memRead k (spaceOf !inverse) (memRead k (spaceOf inverse) g) = g := by
  cases inverse with
  | false => exact k.inv_fwd g
  | true => exact k.fwd_inv g

theorem substitute_substitute_not (k : Instance) (b : Block) (inverse : Bool) :
    substitute k (substitute k b inverse) (!inverse) = b := by
  apply block_ext
  · rw [hi_substitute, hi_substitute, memRead_memRead_not]
  · rw [mid_substitute, mid_substitute, memRead_memRead_not]
  · rw [lo_substitute, lo_substitute, memRead_memRead_not]

@[simp] theorem substitute_inverse_forward (k : Instance) (b : Block) :
    substitute k (substitute k b false) true = b :=
  substitute_substitute_not k b false

@[simp] theorem substitute_forward_inverse (k : Instance) (b : Block) :
    substitute k (substitute k b true) false = b :=
  substitute_substitute_not k b true

/-- The inverse substitution is the forward one read backwards. -/
theorem substitute_inverse_eq_iff {k : Instance} {b c : Block} :
    substitute k b true = c ↔ substitute k c false = b := by
  constructor
  · rintro rfl
    exact substitute_forward_inverse k b
  · rintro rfl
    exact substitute_inverse_forward k c

/-- Settles O12: each operation writes its substitution of `BLOCK`, and the second undoes the first. -/
theorem substitutionsUndoEachOther : Obligations.SubstitutionsUndoEachOther := by
  refine ⟨fun k b => ⟨substitute_inverse_forward k b, substitute_forward_inverse k b⟩, ?_, ?_⟩
  · intro s t h
    cases h
    simp [exec_subi]
  · intro s t h
    cases h
    simp [exec_subf]

/-! The table of R11. -/

/-- The forward substitution depends on the forward table only (R69). -/
theorem substitute_forward_congr {k k' : Instance} (h : k.sboxFwd = k'.sboxFwd) (b : Block) :
    substitute k b false = substitute k' b false := by
  simp only [substitute, memRead_fwd, h]

/-- Value 3 is the only fixed point of the table of R11 (R70). -/
theorem defaultFwd_read_eq_self_iff {g : Group} : Table.read defaultFwd g = g ↔ g = 3 := by
  revert g; decide

theorem substitute_default_eq_self_iff {b : Block} :
    substitute defaultInstance b false = b ↔ b = 0b011011011#9 :=
  calc substitute defaultInstance b false = b
      ↔ Table.read defaultFwd (hi b) = hi b ∧ Table.read defaultFwd (mid b) = mid b ∧
          Table.read defaultFwd (lo b) = lo b := substitute_eq_self_iff
    _ ↔ hi b = 3 ∧ mid b = 3 ∧ lo b = 3 := by simp only [defaultFwd_read_eq_self_iff]
    _ ↔ b = 0b011011011#9 := (block_eq_iff (b := 0b011011011#9)).symm

/-- Settles O6: SUBF writes the forward substitution, whose corner cases are those of the default instance. -/
theorem subfReplacesEachGroup : Obligations.SubfReplacesEachGroup := by
  refine ⟨rfl, fun s => ⟨_, exec_subf s, rfl, substitute_toNat s.inst s.block false, fun hfwd => ?_⟩⟩
  have hdefault := substitute_forward_congr (k := s.inst) (k' := defaultInstance) hfwd
  rw [State.writeBlock_block, hdefault]
  refine ⟨fun hblock => ?_, fun hblock => ?_, substitute_default_eq_self_iff, fun hblock => ?_⟩
  · rw [hblock]; rfl
  · rw [hblock]; rfl
  · rw [hblock]; rfl

/-- Settles O7: SUBI writes the inverse substitution; each corner case is a forward one read backwards. -/
theorem subiReplacesEachGroup : Obligations.SubiReplacesEachGroup := by
  refine ⟨rfl, fun s => ⟨_, exec_subi s, rfl, substitute_toNat s.inst s.block true, fun hfwd => ?_⟩⟩
  have hdefault := substitute_forward_congr (k := s.inst) (k' := defaultInstance) hfwd
  simp only [State.writeBlock_block, substitute_inverse_eq_iff, hdefault]
  refine ⟨fun hblock => ?_, fun hblock => ?_, substitute_default_eq_self_iff.mpr, fun hblock => ?_⟩
  · rw [hblock]; rfl
  · rw [hblock]; rfl
  · rw [hblock]; rfl

end Sys2Proof.Machine

/-! ## Permutation (43_permutation.md R75 to R79)

`permute` is written as a scatter; the one reading of its result that the proofs use is the gather of R78,
`permute_getLsbD`. The laws of PERM then are laws of the index map `pbox`. -/

namespace Sys2Proof.Machine

/-! The wiring. -/

theorem pbox_lt {i : Nat} (h : i < 9) : pbox i < 9 := by
  rw [pbox]
  omega

/-- R77: with `i = 3 * row + col`, `pbox` exchanges `row` and `col`. -/
theorem pbox_pbox {i : Nat} (h : i < 9) : pbox (pbox i) = i := by
  have hrow : pbox i / 3 = i % 3 := by rw [pbox]; omega
  have hcol : pbox i % 3 = i / 3 := by rw [pbox]; omega
  calc pbox (pbox i)
      = pbox i % 3 * 3 + pbox i / 3 := rfl
    _ = i / 3 * 3 + i % 3 := by rw [hrow, hcol]
    _ = i := Nat.div_add_mod' i 3

/-- The wire that ends at `i` begins at `pbox i` (R78). -/
theorem eq_pbox_iff {i j : Nat} (hi : i < 9) (hj : j < 9) : i = pbox j ↔ j = pbox i := by
  constructor
  · rintro rfl
    exact (pbox_pbox hj).symm
  · rintro rfl
    exact (pbox_pbox hi).symm

/-- The wiring reaches each of the nine positions once. -/
theorem map_pbox_range_perm : ((List.range 9).map pbox).Perm (List.range 9) := by
  decide

/-! The scatter, bit by bit. -/

theorem bitAt_getLsbD (j : Nat) (v : Bool) {i : Nat} (hi : i < 9) :
    (bitAt j v).getLsbD i = (decide (i = j) && v) := by
  rcases Nat.lt_trichotomy i j with h | rfl | h
  · simp [bitAt, h, h.ne]
  · simp [bitAt, hi]
  · have hbit : i - j ≠ 0 := by omega
    simp [bitAt, h.ne', hbit]

/-- A bit is set in an OR of words exactly when it is set in one of them. -/
theorem foldl_or_getLsbD {w : Nat} (f : Nat → BitVec w) (l : List Nat) (r : BitVec w) (i : Nat) :
    (l.foldl (fun r j => r ||| f j) r).getLsbD i = (r.getLsbD i || l.any fun j => (f j).getLsbD i) := by
  induction l generalizing r with
  | nil => simp
  | cons j l ih => simp [ih, Bool.or_assoc]

/-- R78: bit `i` of the permuted block is bit `pbox i` of the block, the only one wired to `i`. -/
theorem permute_getLsbD (b : Block) {i : Nat} (hi : i < 9) : (permute b).getLsbD i = b.getLsbD (pbox i) := by
  rw [permute, foldl_or_getLsbD, Bool.eq_iff_iff]
  simp only [bitAt_getLsbD _ _ hi, BitVec.ofNat_eq_ofNat, BitVec.getLsbD_zero, Bool.false_or, List.any_eq_true,
    List.mem_range, Bool.and_eq_true, decide_eq_true_eq]
  constructor
  · rintro ⟨j, hj, hwire, hset⟩
    rwa [← (eq_pbox_iff hi hj).mp hwire]
  · intro hset
    exact ⟨pbox i, pbox_lt hi, (pbox_pbox hi).symm, hset⟩

/-- R75: bit `i` moves to position `pbox i`. -/
theorem permute_getLsbD_pbox (b : Block) {i : Nat} (hi : i < 9) :
    (permute b).getLsbD (pbox i) = b.getLsbD i := by
  rw [permute_getLsbD b (pbox_lt hi), pbox_pbox hi]

/-! The laws of PERM. -/

/-- R77: transposing twice restores the block. -/
@[simp] theorem permute_permute (b : Block) : permute (permute b) = b := by
  apply BitVec.eq_of_getLsbD_eq
  intro i hi
  rw [permute_getLsbD _ hi, permute_getLsbD_pbox b hi]

/-- R76: the permutation keeps the number of set bits, since it only reorders the nine indexes counted. -/
theorem countP_permute_getLsbD (b : Block) :
    (List.range 9).countP (fun i => (permute b).getLsbD i) = (List.range 9).countP (fun i => b.getLsbD i) :=
  calc (List.range 9).countP (fun i => (permute b).getLsbD i)
      = (List.range 9).countP (fun i => b.getLsbD (pbox i)) :=
        List.countP_congr fun i hi => by rw [permute_getLsbD b (List.mem_range.mp hi)]
    _ = ((List.range 9).map pbox).countP (fun i => b.getLsbD i) := List.countP_map.symm
    _ = (List.range 9).countP (fun i => b.getLsbD i) := map_pbox_range_perm.countP_eq _

/-- R76: the fixed blocks are those whose exchanged pairs of bits agree; the diagonal 0, 4, 8 is free. -/
theorem permute_eq_self_iff {b : Block} :
    permute b = b ↔
      b.getLsbD 1 = b.getLsbD 3 ∧ b.getLsbD 2 = b.getLsbD 6 ∧ b.getLsbD 5 = b.getLsbD 7 := by
  constructor
  · intro hfixed
    have hwire : ∀ i < 9, b.getLsbD i = b.getLsbD (pbox i) := fun i hi => by
      rw [← permute_getLsbD b hi, hfixed]
    exact ⟨hwire 1 (by decide), hwire 2 (by decide), hwire 5 (by decide)⟩
  · rintro ⟨h13, h26, h57⟩
    apply BitVec.eq_of_getLsbD_eq
    intro i hi
    rw [permute_getLsbD b hi]
    interval_cases i
    · rfl
    · exact h13.symm
    · exact h26.symm
    · exact h13
    · rfl
    · exact h57.symm
    · exact h26
    · exact h57
    · rfl

/-- A count over `m * n` numbers, taken `n` at a time. -/
theorem countP_range_mul (p : Nat → Bool) (m n : Nat) :
    (List.range (m * n)).countP p =
      ((List.range m).map fun h => (List.range n).countP fun l => p (h * n + l)).sum := by
  induction m with
  | zero => simp
  | succ m ih =>
    rw [Nat.succ_mul, List.range_add, List.countP_append, ih, List.countP_map, List.sum_range_succ]
    rfl

/-- Under each high group the three equations of `permute_eq_self_iff` leave three of the six low bits free. -/
theorem countP_permute_eq_self_of_hi {h : Nat} (hh : h < 8) :
    (List.range 64).countP
      (fun l => permute (BitVec.ofNat 9 (h * 64 + l)) == BitVec.ofNat 9 (h * 64 + l)) = 8 := by
  simp only [beq_eq_decide, permute_eq_self_iff]
  revert h
  decide

/-- R76: there are 64 fixed blocks, 8 under each of the 8 high groups. -/
theorem countP_permute_eq_self :
    (List.range 512).countP (fun n => permute (BitVec.ofNat 9 n) == BitVec.ofNat 9 n) = 64 := by
  have heach : ∀ h ∈ List.range 8, (List.range 64).countP
      (fun l => permute (BitVec.ofNat 9 (h * 64 + l)) == BitVec.ofNat 9 (h * 64 + l)) = 8 :=
    fun h hh => countP_permute_eq_self_of_hi (List.mem_range.mp hh)
  rw [show 512 = 8 * 64 from rfl, countP_range_mul, List.map_congr_left heach]
  rfl

/-- Settles O8: PERM writes the permuted block, whose bits `permute_getLsbD_pbox` places. -/
theorem permMovesEachBit : Obligations.PermMovesEachBit :=
  ⟨rfl, fun s => ⟨_, exec_perm s, rfl, fun _ hi => permute_getLsbD_pbox s.block hi⟩⟩

/-- Settles O9. -/
theorem permCornerCases : Obligations.PermCornerCases :=
  ⟨permute_eq_self_iff.mpr ⟨rfl, rfl, rfl⟩, permute_eq_self_iff.mpr ⟨rfl, rfl, rfl⟩, countP_permute_getLsbD,
    fun _ => permute_eq_self_iff, countP_permute_eq_self, rfl, rfl⟩

/-- Settles O13. -/
theorem permuteIsAnInvolution : Obligations.PermuteIsAnInvolution :=
  ⟨permute_permute, fun _ => pbox_pbox⟩

end Sys2Proof.Machine

/-! ## Steps: an engine at rest, and a command from its START to its completion (70_reset_and_hazards.md R121,
R125 to R128)

`UnderWay` says which registers a command fixes; `commandAt` is the whole state, so that it also says what a
command leaves unchanged. -/

namespace Sys2Proof.Machine

theorem step_of_quiet_rest {s : State} (hq : Quiet s) (hrun : s.run ≠ .busy) : step s = .next s := by
  obtain ⟨hreset, hstart⟩ := hq
  simp [step, cycle, hreset, hstart, State.busy, hrun]

/-- A step takes the request it finds: none is pending after it (R126; log entry 6). -/
theorem quiet_of_step {s t : State} (h : step s = .next t) : Quiet t := by
  obtain rfl | rfl | ⟨hq, -, -, nxt, -, -, -, rfl⟩ | ⟨hq, -, rfl⟩ := step_next_cases h
  · exact ⟨rfl, rfl⟩
  · obtain ⟨-, e⟩ | ⟨-, e⟩ := startCommand_cases s.cmdPort (lowerRequests s) <;> rw [e]
    · exact ⟨rfl, rfl⟩
    · exact ⟨rfl, rfl⟩
  · cases nxt with
    | goto | complete => exact hq
  · exact hq

/-- The state `n` micro-operations into the command `d` that was accepted in the state `s`. -/
def commandAt (d : BitVec 1) (s : State) (n : Nat) : State :=
  { s with
    dir := d, block := blockAfter s.inst d s.dinPort s.keyPort n, keyr := s.keyPort
    ridx := n / 3, phase := phaseAt n, run := .busy }

theorem startCommand_eq_commandAt {s : State} (d : BitVec 1) (hrun : s.run ≠ .busy) :
    startCommand d s = commandAt d s 0 := startCommand_accepted hrun

theorem underWay_commandAt {s : State} (hq : Quiet s) (d : BitVec 1) (n : Nat) :
    UnderWay s.inst d s.dinPort s.keyPort n (commandAt d s n) :=
  ⟨hq, rfl, rfl, rfl, rfl, rfl, rfl, rfl⟩

theorem step_commandAt {s : State} (hq : Quiet s) (d : BitVec 1) {n : Nat} (hn : n + 1 < 3 * s.inst.rounds) :
    step (commandAt d s n) = .next (commandAt d s (n + 1)) := by
  rw [(underWay_commandAt hq d n).step_eq (by omega), nextAt, if_neg (by omega)]
  rfl

theorem steps_commandAt {s : State} (hq : Quiet s) (d : BitVec 1) {n : Nat} (hn : n < 3 * s.inst.rounds) :
    steps n (commandAt d s 0) = .next (commandAt d s n) := by
  induction n with
  | zero => rfl
  | succ n ih => rw [steps_add (ih (by omega)), steps_succ_of_next 0 (step_commandAt hq d hn), steps_zero]

/-- Either command after its last step (R128), by its whole state: what `KEYR` holds is left open (R20). -/
theorem exists_steps_startCommand {s : State} (hq : Quiet s) (hrun : s.run ≠ .busy) (d : BitVec 1) {b : Block}
    (hb : blockAfter s.inst d s.dinPort s.keyPort (3 * s.inst.rounds) = b) :
    ∃ u, steps (3 * s.inst.rounds) (startCommand d s) = .next u ∧ u.dout = some b ∧
      u = { s with block := b, dir := d, ridx := s.inst.rounds - 1, phase := .p2, run := .done,
                   keyr := u.keyr, freeCount := u.freeCount } := by
  have hpos := s.inst.rounds_pos
  obtain ⟨m, hm⟩ : ∃ m, 3 * s.inst.rounds = m + 1 := ⟨3 * s.inst.rounds - 1, by omega⟩
  have hridx : m / 3 = s.inst.rounds - 1 := by omega
  have hphase : phaseAt m = .p2 := phaseAt_eq_iff.mpr (by simp only [Phase.toNat]; omega)
  have hlast : step (commandAt d s m) = .next (advance .complete ((commandAt d s m).writeBlock b)) := by
    rw [(underWay_commandAt hq d m).step_eq (by omega), nextAt, if_pos hm.symm, ← hm, hb]
  have hsteps : steps (m + 1) (startCommand d s) =
      .next (advance .complete ((commandAt d s m).writeBlock b)) := by
    rw [startCommand_eq_commandAt d hrun, steps_add (steps_commandAt hq d (by omega)),
      steps_succ_of_next 0 hlast, steps_zero]
  rw [hm, ← hridx, ← hphase]
  exact ⟨_, hsteps, rfl, rfl⟩

/-! A position by its round and phase instead of its number. -/

@[simp] theorem phaseAt_round (r : Nat) (ph : Phase) : phaseAt (3 * r + ph.toNat) = ph :=
  phaseAt_eq_iff.mpr (by cases ph <;> simp only [Phase.toNat] <;> omega)

@[simp] theorem ridx_round (r : Nat) (ph : Phase) : (3 * r + ph.toNat) / 3 = r := by
  cases ph <;> simp only [Phase.toNat] <;> omega

/-- One row of a transition table, on the block of the command. -/
theorem blockAfter_row {i : Instance} {d : BitVec 1} {r : Nat} {ph : Phase} {op : Instr} {nxt : Next}
    (x : Block) (k : Key) (h : roundTable d i.rounds r ph = some (op, nxt)) :
    blockAfter i d x k (3 * r + ph.toNat + 1) = opBlock i k op (blockAfter i d x k (3 * r + ph.toNat)) :=
  blockAfter_succ (by rw [phaseAt_round, ridx_round, h])

end Sys2Proof.Machine

/-! ## Steps: the sequencer reads no data (44_encode.md R81; 45_decode.md R90; 70_reset_and_hazards.md, Timing) -/

namespace Sys2Proof.Machine

/-- The state with other values in the two data registers. -/
def State.withData (s : State) (b : Block) (k : Key) : State := { s with block := b, keyr := k }

@[simp] theorem State.withData_row (s : State) (b : Block) (k : Key) : (s.withData b k).row = s.row := rfl

theorem quiet_withData {s : State} (hq : Quiet s) (b : Block) (k : Key) : Quiet (s.withData b k) := hq

/-- The advance moves the control state alike, whatever the data; completion draws its value for `KEYR` (R20). -/
theorem exists_advance_withData (nxt : Next) (s : State) (a b : Block) (k : Key) :
    ∃ k', advance nxt ((s.withData b k).writeBlock a) = (advance nxt s).withData a k' := by
  cases nxt with
  | goto | complete => exact ⟨_, rfl⟩

theorem exists_step_withData {s t : State} (hq : Quiet s) (h : step s = .next t) (b : Block) (k : Key) :
    ∃ b' k', step (s.withData b k) = .next (t.withData b' k') := by
  by_cases hrun : s.run = .busy
  · rw [step_of_quiet_busy hq hrun] at h
    obtain ⟨op, nxt, a, hrow, -, e⟩ | ⟨-, e⟩ := engineStep_cases s <;> rw [e] at h <;> cases h
    have hstep := step_of_row (quiet_withData hq b k) hrun ((s.withData_row b k).trans hrow)
    obtain ⟨k', hadvance⟩ := exists_advance_withData nxt (s.writeBlock a) _ b k
    exact ⟨_, k', hstep.trans (congrArg _ hadvance)⟩
  · rw [step_of_quiet_rest hq hrun] at h
    cases h
    exact ⟨b, k, step_of_quiet_rest (quiet_withData hq b k) hrun⟩

theorem exists_steps_withData {n : Nat} {s t : State} (hq : Quiet s) (h : steps n s = .next t) (b : Block)
    (k : Key) : ∃ b' k', steps n (s.withData b k) = .next (t.withData b' k') := by
  induction n generalizing s b k with
  | zero =>
    cases h
    exact ⟨b, k, rfl⟩
  | succ n ih =>
    cases hstep : step s with
    | next u =>
      rw [steps_succ_of_next n hstep] at h
      obtain ⟨b', k', hdata⟩ := exists_step_withData hq hstep b k
      rw [steps_succ_of_next n hdata]
      exact ih (quiet_of_step hstep) h b' k'
    | fault f => rw [steps_succ, hstep] at h; cases h
    | refused r => rw [steps_succ, hstep] at h; cases h

/-- Settles O37. -/
theorem sequenceDoesNotDependOnData : Obligations.SequenceDoesNotDependOnData := by
  intro n s t b k hstart hreset h
  obtain ⟨b', k', hdata⟩ := exists_steps_withData ⟨hreset, hstart⟩ h b k
  exact ⟨_, hdata, rfl⟩

end Sys2Proof.Machine

/-! ## ENC: the table `ENCODE_ROUND`, its steps, its micro-operations and its result (44_encode.md R80 to R85) -/

namespace Sys2Proof.Machine

/-! The four rows (R81). -/

theorem roundTable_encode (rounds r : Nat) (ph : Phase) : roundTable 0 rounds r ph = encodeRound rounds r ph := rfl

section Rows

variable {rounds r : Nat}

theorem encode_row_p0 (h : r < rounds) : roundTable 0 rounds r .p0 = some (.kmix, .goto r .p1) := by
  rw [roundTable_encode, encodeRound, if_pos h]

theorem encode_row_p1 (h : r < rounds) : roundTable 0 rounds r .p1 = some (.subf, .goto r .p2) := by
  rw [roundTable_encode, encodeRound, if_pos h]

theorem encode_row_p2_notLast (h : r + 1 < rounds) :
    roundTable 0 rounds r .p2 = some (.perm, .goto (r + 1) .p0) := by
  rw [roundTable_encode]
  simp [encodeRound, lastRound, h.ne, Nat.lt_of_succ_lt h]

theorem encode_row_p2_last (h : r + 1 = rounds) : roundTable 0 rounds r .p2 = some (.kmix, .complete) := by
  rw [roundTable_encode]
  simp [encodeRound, lastRound, ← h]

end Rows

/-- Settles O3: each clause is `step_of_row` at its row. -/
theorem encodeStepsFollowTheTable : Obligations.EncodeStepsFollowTheTable := by
  intro s hreset hstart hrun hdir hlt
  have hstep {ph : Phase} {op : Instr} {nxt : Next} (hph : s.phase = ph)
      (hrow : roundTable 0 s.inst.rounds s.ridx ph = some (op, nxt)) :
      step s = .next (advance nxt (s.writeBlock (opBlock s.inst s.keyr op s.block))) :=
    step_of_row ⟨hreset, hstart⟩ hrun (by rw [State.row, hdir, hph, hrow])
  exact ⟨fun hph => hstep hph (encode_row_p0 hlt), fun hph => hstep hph (encode_row_p1 hlt),
    fun hph hnext => hstep hph (encode_row_p2_notLast (by omega)),
    fun hph hlast => ⟨_, hstep hph (encode_row_p2_last (by omega)), rfl⟩⟩

/-! The sequence of micro-operations, read off either table row by row. -/

theorem opsFrom_of_goto {d : BitVec 1} {rounds r r' : Nat} {ph ph' : Phase} {op : Instr} (fuel : Nat)
    (h : roundTable d rounds r ph = some (op, .goto r' ph')) :
    opsFrom d rounds (fuel + 1) r ph = op :: opsFrom d rounds fuel r' ph' := by
  simp only [opsFrom, h]

theorem opsFrom_of_complete {d : BitVec 1} {rounds r : Nat} {ph : Phase} {op : Instr} (fuel : Nat)
    (h : roundTable d rounds r ph = some (op, .complete)) : opsFrom d rounds (fuel + 1) r ph = [op] := by
  simp only [opsFrom, h]

/-- From the start of a round with `m` more rounds after it: those that permute, then the last. -/
theorem opsFrom_encode {rounds r m : Nat} (hr : r + m + 1 = rounds) :
    opsFrom 0 rounds (3 * m + 4) r .p0 =
      (List.replicate m [Instr.kmix, .subf, .perm]).flatten ++ [.kmix, .subf, .kmix] := by
  have hlt : r < rounds := by omega
  induction m generalizing r with
  | zero =>
    rw [opsFrom_of_goto _ (encode_row_p0 hlt), opsFrom_of_goto _ (encode_row_p1 hlt),
      opsFrom_of_complete _ (encode_row_p2_last hr)]
    rfl
  | succ m ih =>
    rw [show 3 * (m + 1) + 4 = 3 * m + 4 + 3 by omega, opsFrom_of_goto _ (encode_row_p0 hlt),
      opsFrom_of_goto _ (encode_row_p1 hlt), opsFrom_of_goto _ (encode_row_p2_notLast (by omega)),
      ih (by omega) (by omega)]
    rfl

theorem commandOps_encode (m : Nat) :
    commandOps 0 (m + 1) = (List.replicate m [Instr.kmix, .subf, .perm]).flatten ++ [.kmix, .subf, .kmix] :=
  opsFrom_encode (by omega)

/-- How often an operation stands in `m` copies of a round and a last round after them. -/
theorem count_replicate_flatten_append (op : Instr) (m : Nat) (l last : List Instr) :
    ((List.replicate m l).flatten ++ last).count op = m * l.count op + last.count op := by
  simp [List.count_flatten]

theorem length_replicate_flatten_append (m : Nat) (l last : List Instr) :
    ((List.replicate m l).flatten ++ last).length = m * l.length + last.length := by
  simp

/-- Settles O22. -/
theorem microOperationsOfEnc : Obligations.MicroOperationsOfEnc := by
  intro rounds hpos
  obtain ⟨m, rfl⟩ := Nat.exists_eq_add_of_le' hpos
  simp only [commandOps_encode, count_replicate_flatten_append, length_replicate_flatten_append,
    Nat.add_sub_cancel, true_and]
  refine ⟨?length, ?kmix, ?subf, ?perm⟩
  case length =>
    show m * 3 + 3 = 3 * (m + 1)
    omega
  case kmix | subf | perm => simp

/-! The result. -/

/-- Three micro-operations of the machine are one round of the loop of R80. -/
theorem blockAfter_encRound {i : Instance} {r : Nat} (x : Block) (k : Key) (hr : r < i.rounds) :
    blockAfter i 0 x k (3 * (r + 1)) = encRound i k (blockAfter i 0 x k (3 * r)) r := by
  have hkmix : blockAfter i 0 x k (3 * r + 1) = keyMix (blockAfter i 0 x k (3 * r)) k :=
    blockAfter_row x k (encode_row_p0 hr)
  have hsubf : blockAfter i 0 x k (3 * r + 2) = substitute i (blockAfter i 0 x k (3 * r + 1)) false :=
    blockAfter_row x k (encode_row_p1 hr)
  rw [encRound, ← hkmix, ← hsubf]
  by_cases hlast : r + 1 = i.rounds
  · rw [if_pos (by simpa [lastRound] using hlast)]
    exact blockAfter_row x k (encode_row_p2_last hlast)
  · rw [if_neg (by simpa [lastRound] using hlast)]
    exact blockAfter_row x k (encode_row_p2_notLast (by omega))

theorem blockAfter_encode {i : Instance} {r : Nat} (x : Block) (k : Key) (hr : r ≤ i.rounds) :
    blockAfter i 0 x k (3 * r) = (List.range r).foldl (encRound i k) x := by
  induction r with
  | zero => rfl
  | succ r ih => rw [blockAfter_encRound x k hr, ih (by omega), List.range_succ, List.foldl_concat]

/-- Settles O19. -/
theorem encodeCommandComputesEnc : Obligations.EncodeCommandComputesEnc := by
  intro s hreset hstart hrest
  have hrun := run_ne_busy_of_atRest hrest
  obtain ⟨u, hsteps, hdout, hu⟩ := exists_steps_startCommand ⟨hreset, hstart⟩ hrun 0
    (blockAfter_encode s.dinPort s.keyPort le_rfl)
  exact ⟨_, u, exec_enc s, startCommand_accepted hrun, hsteps, hdout, hu⟩

end Sys2Proof.Machine

/-! ## DEC: the table `DECODE_ROUND`, its steps, its micro-operations and its result (45_decode.md R89 to R93) -/

namespace Sys2Proof.Machine

/-! The rows (R90): the round decides the micro-operation at phase 0 and the next position at phase 2. -/

theorem roundTable_decode (rounds r : Nat) (ph : Phase) : roundTable 1 rounds r ph = decodeRound rounds r ph := rfl

section Rows

variable {rounds r : Nat}

theorem decode_row_p0 (h : r < rounds) :
    roundTable 1 rounds r .p0 = some (if r = 0 then .kmix else .perm, .goto r .p1) := by
  rw [roundTable_decode, decodeRound, if_pos h]
  by_cases hfirst : r = 0 <;> simp [firstRound, hfirst]

theorem decode_row_p1 (h : r < rounds) : roundTable 1 rounds r .p1 = some (.subi, .goto r .p2) := by
  rw [roundTable_decode, decodeRound, if_pos h]

theorem decode_row_p2 (h : r < rounds) :
    roundTable 1 rounds r .p2 = some (.kmix, if r + 1 = rounds then .complete else .goto (r + 1) .p0) := by
  rw [roundTable_decode, decodeRound, if_pos h]
  by_cases hlast : r + 1 = rounds <;> simp [lastRound, hlast]

end Rows

/-- `step_of_row` with the row looked up at a direction and a phase of one's own. -/
theorem step_of_roundTable {s : State} {d : BitVec 1} {ph : Phase} {op : Instr} {nxt : Next} (hq : Quiet s)
    (hrun : s.run = .busy) (hdir : s.dir = d) (hph : s.phase = ph)
    (hrow : roundTable d s.inst.rounds s.ridx ph = some (op, nxt)) :
    step s = .next (advance nxt (s.writeBlock (opBlock s.inst s.keyr op s.block))) :=
  step_of_row hq hrun (by rw [State.row, hdir, hph, hrow])

/-- Settles O4: each clause is an engine step at its row. -/
theorem decodeStepsFollowTheTable : Obligations.DecodeStepsFollowTheTable := by
  intro s hreset hstart hrun hdir hlt
  have hp0 (hph : s.phase = .p0) := step_of_roundTable ⟨hreset, hstart⟩ hrun hdir hph (decode_row_p0 hlt)
  have hp2 (hph : s.phase = .p2) := step_of_roundTable ⟨hreset, hstart⟩ hrun hdir hph (decode_row_p2 hlt)
  refine ⟨fun hph hfirst => ?_, fun hph hpos => ?_,
    fun hph => step_of_roundTable ⟨hreset, hstart⟩ hrun hdir hph (decode_row_p1 hlt),
    fun hph hnext => ?_, fun hph hlast => ⟨_, hp2 hph, ?_⟩⟩
  · rw [hp0 hph, if_pos hfirst]; rfl
  · rw [hp0 hph, if_neg hpos.ne']; rfl
  · rw [hp2 hph, if_neg (by omega)]; rfl
  · rw [if_pos (by omega)]; rfl

/-! The sequence of micro-operations. -/

/-- From the start of a round with `m` more rounds after it: only the first of all rounds opens with KMIX. -/
theorem opsFrom_decode {rounds r m : Nat} (hr : r + m + 1 = rounds) :
    opsFrom 1 rounds (3 * m + 4) r .p0 =
      [if r = 0 then Instr.kmix else .perm, .subi, .kmix] ++
        (List.replicate m [Instr.perm, .subi, .kmix]).flatten := by
  have hlt : r < rounds := by omega
  have hp2 := decode_row_p2 hlt
  induction m generalizing r with
  | zero =>
    rw [if_pos hr] at hp2
    rw [opsFrom_of_goto _ (decode_row_p0 hlt), opsFrom_of_goto _ (decode_row_p1 hlt), opsFrom_of_complete _ hp2]
    rfl
  | succ m ih =>
    rw [if_neg (by omega)] at hp2
    rw [show 3 * (m + 1) + 4 = 3 * m + 4 + 3 by omega, opsFrom_of_goto _ (decode_row_p0 hlt),
      opsFrom_of_goto _ (decode_row_p1 hlt), opsFrom_of_goto _ hp2,
      ih (by omega) (by omega) (decode_row_p2 (by omega)), if_neg r.succ_ne_zero]
    rfl

theorem commandOps_decode (m : Nat) :
    commandOps 1 (m + 1) = [Instr.kmix, .subi, .kmix] ++ (List.replicate m [Instr.perm, .subi, .kmix]).flatten :=
  opsFrom_decode (r := 0) (by omega)

/-- Settles O23: what is counted does not depend on where the special round stands. -/
theorem microOperationsOfDec : Obligations.MicroOperationsOfDec := by
  intro rounds hpos
  obtain ⟨m, rfl⟩ := Nat.exists_eq_add_of_le' hpos
  have hperm : (commandOps 1 (m + 1)).Perm
      ((List.replicate m [Instr.perm, .subi, .kmix]).flatten ++ [.kmix, .subi, .kmix]) := by
    rw [commandOps_decode]
    exact List.perm_append_comm
  simp only [hperm.count_eq, hperm.length_eq, count_replicate_flatten_append, length_replicate_flatten_append,
    Nat.add_sub_cancel]
  refine ⟨commandOps_decode m, ?length, ?kmix, ?subi, ?perm⟩
  case length =>
    show m * 3 + 3 = 3 * (m + 1)
    omega
  case kmix | subi | perm => simp

/-! The result. -/

/-- Three micro-operations of the machine are one round of the loop of R89. -/
theorem blockAfter_decRound {i : Instance} {r : Nat} (x : Block) (k : Key) (hr : r < i.rounds) :
    blockAfter i 1 x k (3 * (r + 1)) = decRound i k (blockAfter i 1 x k (3 * r)) r := by
  have hfirst : blockAfter i 1 x k (3 * r + 1) =
      if firstRound r then keyMix (blockAfter i 1 x k (3 * r)) k else permute (blockAfter i 1 x k (3 * r)) := by
    refine (blockAfter_row x k (decode_row_p0 hr)).trans ?_
    by_cases h : r = 0 <;> simp [firstRound, h, opBlock, Phase.toNat]
  have hsubi : blockAfter i 1 x k (3 * r + 2) = substitute i (blockAfter i 1 x k (3 * r + 1)) true :=
    blockAfter_row x k (decode_row_p1 hr)
  rw [decRound, ← hfirst, ← hsubi]
  exact blockAfter_row x k (decode_row_p2 hr)

theorem blockAfter_decode {i : Instance} {r : Nat} (x : Block) (k : Key) (hr : r ≤ i.rounds) :
    blockAfter i 1 x k (3 * r) = (List.range r).foldl (decRound i k) x := by
  induction r with
  | zero => rfl
  | succ r ih => rw [blockAfter_decRound x k hr, ih (by omega), List.range_succ, List.foldl_concat]

/-- Settles O20. -/
theorem decodeCommandComputesDec : Obligations.DecodeCommandComputesDec := by
  intro s hreset hstart hrest
  have hrun := run_ne_busy_of_atRest hrest
  obtain ⟨u, hsteps, hdout, hu⟩ := exists_steps_startCommand ⟨hreset, hstart⟩ hrun 1
    (blockAfter_decode s.dinPort s.keyPort le_rfl)
  exact ⟨_, u, exec_dec s, startCommand_accepted hrun, hsteps, hdout, hu⟩

end Sys2Proof.Machine

/-! ## The inverse relation, of the functions and on the machine (45_decode.md R94, R96) -/

namespace Sys2Proof.Machine

/-- R67: the same key mixed in twice cancels out. -/
@[simp] theorem keyMix_keyMix (b : Block) (k : Key) : keyMix (keyMix b k) k = b := by
  rw [keyMix, keyMix, BitVec.xor_assoc, BitVec.xor_self, BitVec.xor_zero]

/-- The decoder's first round faces the encoder's last one. -/
theorem lastRound_eq_firstRound {rounds r r' : Nat} (h : r + r' + 1 = rounds) :
    lastRound rounds r = firstRound r' := by
  rw [lastRound, firstRound, Bool.eq_iff_iff, beq_iff_eq, beq_iff_eq]
  omega

/-- R96: decoder round `r'` undoes encoder round `ROUNDS - 1 - r'`. -/
theorem decRound_encRound {i : Instance} {r r' : Nat} (b : Block) (k : Key) (h : r + r' + 1 = i.rounds) :
    decRound i k (encRound i k b r) r' = b := by
  rw [decRound, encRound, lastRound_eq_firstRound h]
  cases firstRound r' <;> simp

/-- R96 over several rounds: after `r'` decoder rounds, the block is as the encoder's first `r` rounds left it. -/
theorem foldl_decRound_encFun {i : Instance} {r r' : Nat} (x : Block) (k : Key) (h : r + r' = i.rounds) :
    (List.range r').foldl (decRound i k) (encFun i x k) = (List.range r).foldl (encRound i k) x := by
  induction r' generalizing r with
  | zero => rw [encFun, ← h]; rfl
  | succ r' ih =>
    rw [List.range_succ, List.foldl_concat, ih (r := r + 1) (by omega), List.range_succ, List.foldl_concat,
      decRound_encRound _ k (by omega)]

/-- Settles O25: no encoder round is left after all rounds of the decoder. -/
theorem decodeInvertsEncode : Obligations.DecodeInvertsEncode :=
  fun i x k => foldl_decRound_encFun x k (Nat.zero_add i.rounds)

/-- The machine's `3 * ROUNDS` micro-operations compute the function of the command (R80, R89). -/
theorem blockAfter_eq_cipherFun (i : Instance) (d : BitVec 1) (x : Block) (k : Key) :
    blockAfter i d x k (3 * i.rounds) = cipherFun i d x k := by
  obtain rfl | rfl := BitVec.eq_zero_or_eq_one d
  · exact blockAfter_encode x k le_rfl
  · exact blockAfter_decode x k le_rfl

/-- A START and `3 * ROUNDS` engine steps give the command's result, and leave the engine ready for the next
command (R128, R129). -/
theorem exists_runActions_cipherFun {s : State} (hreset : s.resetPort = false) (hrun : s.run ≠ .busy)
    (d : BitVec 1) (x : Block) (k : Key) :
    ∃ u, runActions (.start d x k :: List.replicate (3 * s.inst.rounds) .engine) s = .next u ∧
      u.dout = some (cipherFun s.inst d x k) ∧ u.inst = s.inst ∧ u.resetPort = false ∧ u.run = .done := by
  obtain ⟨u, hsteps, hdout, hu⟩ := exists_steps_startCommand (s := lowerRequests (drivePorts d x k s))
    ⟨rfl, rfl⟩ hrun d (blockAfter_eq_cipherFun s.inst d x k)
  refine ⟨u, ?_, hdout, ?_⟩
  · rw [runActions, act_start hreset]
    exact (runActions_replicate_engine _ _).trans hsteps
  · rw [hu]
    exact ⟨rfl, rfl, rfl⟩

/-- Settles O29: the two runs compute ENC and then DEC of its result, under the same constants. -/
theorem machineRoundTrip : Obligations.MachineRoundTrip := by
  intro s x k hreset _ hrest
  obtain ⟨u, hrun, hdout, hinst, hreset', hdone⟩ :=
    exists_runActions_cipherFun hreset (run_ne_busy_of_atRest hrest) 0 x k
  obtain ⟨v, hrun', hdout', -⟩ :=
    exists_runActions_cipherFun hreset' (run_ne_busy_of_atRest (.inr hdone)) 1 (encFun s.inst x k) k
  rw [hinst] at hrun' hdout'
  exact ⟨u, _, v, hrun, hdout, hrun', hdout'.trans (congrArg some (decodeInvertsEncode s.inst x k))⟩

end Sys2Proof.Machine

/-! ## Host software: key recovery, the bias table and the collector (46_host_software.md R99 to R105) -/

namespace Sys2Proof.Machine

/-! Key recovery (R103 to R105). -/

section KeyRecovery

variable {i : Instance} {k : Key} {candidates : List Key} {pairs : List (Block × Block)}

theorem reproduces_eq_true_iff : reproduces i k pairs = true ↔ ∀ pc ∈ pairs, encFun i pc.1 k = pc.2 := by
  simp [reproduces]

theorem reproduces_eq_false_iff : reproduces i k pairs = false ↔ ∃ pc ∈ pairs, encFun i pc.1 k ≠ pc.2 := by
  simp [reproduces]

/-- With a pair to check, `search_key` answers what the search through the candidates finds, and signals key not
found when it finds nothing. -/
theorem searchKey_of_ne_nil (hpairs : pairs ≠ []) :
    searchKey i candidates pairs =
      (candidates.find? fun k => reproduces i k pairs).elim (.error .keyNotFound) .ok := by
  rw [searchKey, if_neg (by simpa using hpairs)]
  cases candidates.find? fun k => reproduces i k pairs <;> rfl

theorem searchKey_eq_ok_iff (hpairs : pairs ≠ []) :
    searchKey i candidates pairs = .ok k ↔ candidates.find? (fun k => reproduces i k pairs) = some k := by
  rw [searchKey_of_ne_nil hpairs]
  cases candidates.find? fun k => reproduces i k pairs <;> simp

theorem searchKey_eq_keyNotFound_iff (hpairs : pairs ≠ []) :
    searchKey i candidates pairs = .error .keyNotFound ↔
      ∀ k ∈ candidates, ∃ pc ∈ pairs, encFun i pc.1 k ≠ pc.2 := by
  have hfind : searchKey i candidates pairs = .error .keyNotFound ↔
      candidates.find? (fun k => reproduces i k pairs) = none := by
    rw [searchKey_of_ne_nil hpairs]
    cases candidates.find? fun k => reproduces i k pairs <;> simp
  simp only [hfind, List.find?_eq_none, Bool.not_eq_true, reproduces_eq_false_iff]

/-- On a non-empty sequence of pairs the only failure is key not found. -/
theorem exists_searchKey_eq_ok_of_ne (hpairs : pairs ≠ [])
    (h : searchKey i candidates pairs ≠ .error .keyNotFound) : ∃ k, searchKey i candidates pairs = .ok k := by
  rw [searchKey_of_ne_nil hpairs] at h ⊢
  cases hfind : candidates.find? fun k => reproduces i k pairs with
  | some k => exact ⟨k, rfl⟩
  | none => exact absurd (by rw [hfind]; rfl) h

end KeyRecovery

/-- Settles O51: `List.find?` splits the candidates at the one it answers, which reproduces every pair, and none
before it does. -/
theorem searchKeyReturnsTheFirstMatch : Obligations.SearchKeyReturnsTheFirstMatch := by
  intro i candidates pairs k hpairs
  rw [searchKey_eq_ok_iff hpairs, List.find?_eq_some_iff_append]
  simp only [Bool.not_eq_true', reproduces_eq_true_iff, reproduces_eq_false_iff]
  constructor
  · rintro ⟨hk, before, after, hsplit, hbefore⟩
    exact ⟨before, after, hsplit, hk, hbefore⟩
  · rintro ⟨before, after, hsplit, hk, hbefore⟩
    exact ⟨hk, before, after, hsplit, hbefore⟩

/-- Settles O52: the key that made the pairs misses none of them, so if it is a candidate the search does not
fail. -/
theorem searchKeyFailsWithoutAMatch : Obligations.SearchKeyFailsWithoutAMatch := by
  intro i candidates pairs hpairs
  refine ⟨searchKey_eq_keyNotFound_iff hpairs, fun k hk hmade => exists_searchKey_eq_ok_of_ne hpairs fun hfail => ?_⟩
  obtain ⟨pc, hpc, hmiss⟩ := (searchKey_eq_keyNotFound_iff hpairs).mp hfail k hk
  exact hmiss (hmade pc hpc).symm

/-! The bias table (R99, R100). -/

/-- An entry counts inputs among the eight (R99). -/
theorem bias_le (t : Table) (i j : Group) : bias t i j ≤ 8 :=
  List.countP_le_length

/-- The bias table of the table of R11, computed; it is the one of R100. -/
theorem biasTable_defaultFwd : biasTable defaultFwd =
    [[4, 4, 4, 2, 6, 2, 2], [4, 8, 4, 4, 4, 4, 4], [4, 4, 4, 2, 2, 2, 6], [4, 4, 8, 4, 4, 4, 4],
     [4, 4, 4, 2, 2, 6, 2], [8, 4, 4, 4, 4, 4, 4], [4, 4, 4, 6, 2, 2, 2]] := by
  decide

/-- Settles O53: the counts and the rows are the definition's; the table of R100 is computed. -/
theorem biasTableCountsAgreements : Obligations.BiasTableCountsAgreements :=
  ⟨fun t i j => ⟨bias_le t i j, rfl⟩, fun _ => rfl, biasTable_defaultFwd⟩

/-! The collector (R101). -/

/-- The XOR of the bits that `get_bit` reads at the given positions (R62). -/
def positionsXor (b : Block) (qs : List Nat) : Bool := (qs.map fun q => b.getLsbD (9 - q)).foldr Bool.xor false

/-- The XOR of the bits an approximation names, of the plaintext and of the ciphertext (R101). -/
def Approximation.xor (a : Approximation) (p c : Block) : Bool :=
  Bool.xor (positionsXor p a.plain) (positionsXor c a.cipher)

theorem positionOk_eq_true_iff {q : Nat} : positionOk q = true ↔ 1 ≤ q ∧ q ≤ 9 := by
  simp [positionOk]

theorem approximationOk_eq_true_iff {a : Approximation} :
    approximationOk a = true ↔ ∀ q ∈ a.plain ++ a.cipher, 1 ≤ q ∧ q ≤ 9 := by
  simp only [approximationOk, List.all_eq_true, positionOk_eq_true_iff]

theorem Approximation.value_of_positions {a : Approximation} (h : ∀ q ∈ a.plain ++ a.cipher, 1 ≤ q ∧ q ≤ 9)
    (p c : Block) : a.value (p, c) = some (BitVec.ofBool (a.xor p c)) := by
  have hplain := xorBits_of_positions p fun q hq => h q (List.mem_append_left _ hq)
  have hcipher := xorBits_of_positions c fun q hq => h q (List.mem_append_right _ hq)
  simp only [Approximation.value, hplain, hcipher, ofBool_xor_ofBool, Approximation.xor, positionsXor]

theorem some_ofBool_beq_some_one (x : Bool) : (some (BitVec.ofBool x) == some 1) = x := by
  cases x <;> rfl

section Collector

variable {approx : List Approximation}

/-- The collector accepts approximations all of whose positions `get_bit` accepts (R62). -/
theorem all_approximationOk_iff :
    approx.all approximationOk = true ↔ ∀ a ∈ approx, ∀ q ∈ a.plain ++ a.cipher, 1 ≤ q ∧ q ≤ 9 := by
  simp only [List.all_eq_true, approximationOk_eq_true_iff]

theorem collect_of_outside {a : Approximation} {q : Nat} (ha : a ∈ approx) (hq : q ∈ a.plain ++ a.cipher)
    (hout : q < 1 ∨ 9 < q) (i : Instance) (k : Key) (ps : List Block) : collect i k approx ps = none := by
  refine if_neg fun hok => ?_
  have hin := all_approximationOk_iff.mp hok a ha q hq
  omega

/-- The samples on which an approximation evaluates to 1 are those on which the XOR of its bits is 1. -/
theorem collect_of_positions (h : ∀ a ∈ approx, ∀ q ∈ a.plain ++ a.cipher, 1 ≤ q ∧ q ≤ 9) (i : Instance) (k : Key)
    (ps : List Block) :
    collect i k approx ps = some
      { pairs := ps.map fun p => (p, encFun i p k)
        counts := approx.map fun a => ps.countP fun p => a.xor p (encFun i p k) } := by
  have hcount : ∀ a ∈ approx, ((ps.map fun p => (p, encFun i p k)).countP fun pc => a.value pc == some 1) =
      ps.countP fun p => a.xor p (encFun i p k) := fun a ha => by
    simp only [List.countP_map, Function.comp_def, Approximation.value_of_positions (h a ha),
      some_ofBool_beq_some_one]
  rw [collect, if_pos (all_approximationOk_iff.mpr h)]
  simp only [List.map_congr_left hcount]

end Collector

theorem frequency_of_pairs_ne_nil {st : Statistics} (h : st.pairs ≠ []) (c : Nat) :
    frequency st c = (c : Rat) / (st.pairs.length : Rat) := by
  simp [frequency, h]

/-- Settles O54: where every position is in range `collect_of_positions` gives the pairs and the counts, and a
count of samples is at most their number. -/
theorem collectorPairsAndCounts : Obligations.CollectorPairsAndCounts := by
  intro i k approx ps
  refine ⟨fun h => ⟨fun a ha => Approximation.value_of_positions (h a ha),
    _, collect_of_positions h i k ps, rfl, rfl, fun c hc => ⟨?_, fun hps => ?_⟩⟩, ?_⟩
  · obtain ⟨a, -, rfl⟩ := List.mem_map.mp hc
    exact List.countP_le_length
  · rw [frequency_of_pairs_ne_nil (by simpa using hps), List.length_map]
  · rintro ⟨a, ha, q, hq, hout⟩
    exact collect_of_outside ha hq hout i k ps

end Sys2Proof.Machine

/-! ## Exceptions: nothing stops the machine, and an engine at rest stays as it is (60_exceptions.md R107,
R108, R121) -/

namespace Sys2Proof.Machine

/-! Progress under the invariant: only its clause for `BUSY` is used, since the sequencer outside its table is
the one refusal of a step (log entry 9). -/

theorem exists_engineStep {s : State} (hridx : s.ridx < s.inst.rounds) : ∃ t, engineStep s = .next t := by
  obtain ⟨_, _, _, -, -, hstep⟩ | ⟨hout, -⟩ := engineStep_cases s
  · exact ⟨_, hstep⟩
  · exact absurd hridx hout

theorem ControlInv.exists_step {s : State} (h : ControlInv s) : ∃ t, step s = .next t ∧ ControlInv t := by
  obtain ⟨t, ht⟩ : ∃ t, step s = .next t := by
    obtain ⟨-, hbusy, -⟩ := h
    obtain ⟨-, hstep⟩ | ⟨-, -, hstep⟩ | ⟨-, hrun, hstep⟩ | ⟨-, -, hstep⟩ := step_cases s
    · exact ⟨_, hstep⟩
    · exact ⟨_, hstep⟩
    · rw [hstep]
      exact exists_engineStep (hbusy hrun)
    · exact ⟨_, hstep⟩
  exact ⟨t, ht, stepKeepsTheInvariant s t h ht⟩

/-- The host's part of an action writes ports, of which `ControlInv` says nothing; what remains is a step or
nothing. -/
theorem ControlInv.exists_act {s : State} (h : ControlInv s) (a : Action) :
    ∃ t, act a s = .next t ∧ ControlInv t := by
  cases a with
  | reset =>
    have hrequest : ControlInv { s with resetPort := true } := h
    exact hrequest.exists_step
  | start c x k =>
    have hrequest : ControlInv { drivePorts c x k s with startPort := true } := h
    exact hrequest.exists_step
  | drive c x k => exact ⟨_, rfl, h⟩
  | engine => exact h.exists_step

/-- Settles O42, by progress and preservation: of a step, and of every action. -/
theorem machineNeverStops : Obligations.MachineNeverStops := by
  intro s h
  obtain ⟨t, hstep, -⟩ := h.exists_step
  exact ⟨⟨t, hstep⟩, h.exists_act⟩

/-- Settles O38, by induction on the number of steps: each one answers the state it began in. -/
theorem engineAtRestStays : Obligations.EngineAtRestStays := by
  intro n s hreset hstart hrest
  have hstep : step s = .next s := step_of_quiet_rest ⟨hreset, hstart⟩ (run_ne_busy_of_atRest hrest)
  induction n with
  | zero => exact steps_zero s
  | succ n ih => rw [steps_succ_of_next n hstep, ih]

/-- Settles O10, by the table of R108: the commands answer their START, accepted or ignored, and the
micro-operations a new block. -/
theorem everyOperationAnswersANextState : Obligations.EveryOperationAnswersANextState := by
  intro i s
  cases i with
  | enc => exact ⟨_, exec_enc s⟩
  | dec => exact ⟨_, exec_dec s⟩
  | kmix => exact ⟨_, exec_kmix s⟩
  | perm => exact ⟨_, exec_perm s⟩
  | subf => exact ⟨_, exec_subf s⟩
  | subi => exact ⟨_, exec_subi s⟩

end Sys2Proof.Machine

/-! ## Steps: the operation a step runs (30_encoding.md R53 to R55; 44_encode.md R82; 45_decode.md R91;
log entry 11) -/

namespace Sys2Proof.Machine

/-- Settles O1: the code on the port is decoded, and nothing else of the state chooses the operation. -/
theorem stepRunsThePresentedCommand : Obligations.StepRunsThePresentedCommand := by
  intro s i hreset hstart hi
  have hstep : step s = startStep s := by simp [step, cycle, hreset, hstart]
  rw [hstep, startStep, State.portInstr, hi]
  rfl

/-- What a micro-operation means, in one equation: a new block and nothing else (R54). -/
theorem exec_of_format_U {op : Instr} (h : op.format = .U) (s : State) :
    exec op s = .next (s.writeBlock (opBlock s.inst s.keyr op s.block)) := by
  have hexec := exec_decode_encode_of_format_U h s
  rwa [decode_encode] at hexec

/-- Settles O2: the control word is read back as its operation, and the two kinds of next position are the two
cases of the advance. -/
theorem stepRunsTheIssuedMicroOperation : Obligations.StepRunsTheIssuedMicroOperation := by
  intro s op i nxt hreset hstart hrun hrow hi
  obtain rfl : i = op := hi.symm.trans (decode_encode op)
  refine ⟨rfl, _, _, exec_of_format_U (format_of_roundTable hrow) s, step_of_row ⟨hreset, hstart⟩ hrun hrow, ?_⟩
  cases nxt with
  | goto r ph => rfl
  | complete => rfl

/-- The per-operation statements of the codes, gathered (R56, R58). -/
theorem exactCode (i : Instr) : Laws.ExactCode.Statement i := by
  cases i with
  | enc => exact Laws.ExactCode.enc
  | dec => exact Laws.ExactCode.dec
  | kmix => exact Laws.ExactCode.kmix
  | perm => exact Laws.ExactCode.perm
  | subf => exact Laws.ExactCode.subf
  | subi => exact Laws.ExactCode.subi

/-- The word of an operation at the width of its format places that operation. -/
theorem withFetchWord_encode {i : Instr} {width : Nat} (h : i.format.width = width) (s : State) :
    s.withFetchWord width (encode i).toNat = placeInstr i s := by
  obtain ⟨-, -, hword⟩ := exactCode i
  rw [State.withFetchWord, placeWord, ← h, hword]

/-- A placed command runs as the START on the ports (R53, R125). -/
theorem step_placeInstr_of_format_C {i : Instr} (h : i.format = .C) (s : State) :
    step (placeInstr i s) = exec i { placeInstr i s with resetPort := false, startPort := false } := by
  cases i with
  | enc => exact stepRunsThePresentedCommand _ _ rfl rfl (decode_encode .enc)
  | dec => exact stepRunsThePresentedCommand _ _ rfl rfl (decode_encode .dec)
  | kmix | perm | subf | subi => cases h

theorem quiet_busy_placeInstr_of_format_U {i : Instr} (h : i.format = .U) (s : State) :
    Quiet (placeInstr i s) ∧ (placeInstr i s).run = .busy := by
  cases i with
  | enc | dec => cases h
  | kmix | perm | subf | subi => exact ⟨⟨rfl, rfl⟩, rfl⟩

/-- The row at a placed micro-operation's position, in round 0: PERM has one if that round is not the last
(R85). -/
theorem exists_row_placeInstr {i : Instr} {s : State} (h : i.format = .U) (hperm : i = .perm → 2 ≤ s.inst.rounds) :
    ∃ r ph, (placeInstr i s).row = some (i, .goto r ph) := by
  have hpos : 0 < s.inst.rounds := s.inst.rounds_pos
  cases i with
  | enc | dec => cases h
  | kmix => exact ⟨0, .p1, encode_row_p0 hpos⟩
  | perm => exact ⟨1, .p0, encode_row_p2_notLast (hperm rfl)⟩
  | subf => exact ⟨0, .p2, encode_row_p1 hpos⟩
  | subi => exact ⟨0, .p2, decode_row_p1 hpos⟩

/-- Settles O47, by the format: a command meets its START, a micro-operation its row. -/
theorem placedWordIsRun : Obligations.PlacedWordIsRun := by
  intro i s hperm
  refine ⟨fun hC => ?_, fun hU => ?_⟩
  · rw [withFetchWord_encode (width := 1) (congrArg Format.width hC)]
    exact step_placeInstr_of_format_C hC s
  · rw [withFetchWord_encode (width := 2) (congrArg Format.width hU)]
    obtain ⟨hq, hrun⟩ := quiet_busy_placeInstr_of_format_U hU s
    obtain ⟨r, ph, hrow⟩ := exists_row_placeInstr hU hperm
    exact ⟨_, r, ph, hrow, exec_of_format_U hU _, step_of_row hq hrun hrow⟩

end Sys2Proof.Machine

/-! ## The protocol: outputs, RESET, START and the ports in one step (10_state.md R31, R35;
70_reset_and_hazards.md R122, R125 to R127, R129) -/

namespace Sys2Proof.Machine

/-! The outputs. -/

theorem State.dout_of_done {s : State} (h : s.done = true) : s.dout = some s.block := by
  rw [State.dout, if_pos h]

theorem State.dout_of_not_done {s : State} (h : s.done = false) : s.dout = none := by
  simp [State.dout, h]

/-- A result is shown under `DONE` only (R129). -/
theorem State.run_of_dout {s : State} {b : Block} (h : s.dout = some b) : s.run = .done := by
  cases hdone : s.done with
  | true => exact s.done_iff.mp hdone
  | false =>
    rw [State.dout_of_not_done hdone] at h
    cases h

/-- Settles O39. -/
theorem doutIsDefinedUnderDoneOnly : Obligations.DoutIsDefinedUnderDoneOnly :=
  fun s => ⟨State.dout_of_done, State.dout_of_not_done, s.busy_iff, s.done_iff⟩

/-! After reset. -/

/-- Settles O31: the outputs follow from `RUN = IDLE`. -/
theorem stateAfterReset : Obligations.StateAfterReset := by
  intro i
  have hdone : (State.resetOf i).done = false := by simp
  exact ⟨rfl, rfl, rfl, rfl, by simp, hdone, State.dout_of_not_done hdone, rfl⟩

theorem controlInv_resetOf (i : Instance) : ControlInv (State.resetOf i) :=
  controlInv_of_idle rfl rfl rfl rfl

/-- Settles O40: `State.reset` is the state after reset of `defaultInstance`. -/
theorem invariantHoldsAfterReset : Obligations.InvariantHoldsAfterReset :=
  ⟨controlInv_resetOf defaultInstance, controlInv_resetOf⟩

/-! RESET. -/

theorem step_of_resetPort {s : State} (h : s.resetPort = true) :
    step s = .next (resetEngine (lowerRequests s)) := by
  simp [step, cycle, h, resetStep]

/-- The action RESET, in any state: a START that was pending is taken with it (R122). -/
theorem act_reset (s : State) : act .reset s = .next (resetEngine (lowerRequests s)) :=
  step_of_resetPort (s := { s with resetPort := true }) rfl

/-- Settles O30: what a RESET answers holds no block and no key of the state before it. -/
theorem resetFromAnyState : Obligations.ResetFromAnyState := by
  intro s hreset
  refine ⟨⟨_, step_of_resetPort hreset, by simp, by simp, rfl⟩, fun b k => ?_⟩
  rw [step_of_resetPort hreset, step_of_resetPort (s := { s with block := b, keyr := k }) hreset]
  rfl

/-! START. -/

/-- Settles O16. -/
theorem acceptedStartLoadsTheCommand : Obligations.AcceptedStartLoadsTheCommand := by
  intro s hreset hstart hrest
  have haccept : (lowerRequests s).run ≠ .busy := run_ne_busy_of_atRest hrest
  refine ⟨_, step_of_startPort hreset hstart, ?_⟩
  rw [startCommand_accepted haccept]
  exact ⟨by simp, by simp, rfl⟩

/-- Settles O17. -/
theorem startUnderBusyIsIgnored : Obligations.StartUnderBusyIsIgnored := by
  intro s hrun
  rw [exec_enc, exec_dec, startCommand_busy hrun, startCommand_busy hrun]
  exact ⟨rfl, rfl⟩

theorem step_of_startPort_busy {s : State} (hrun : s.run = .busy) (hreset : s.resetPort = false)
    (hstart : s.startPort = true) : step s = .next (lowerRequests s) := by
  rw [step_of_startPort hreset hstart, startCommand_busy (s := lowerRequests s) hrun]

theorem lowerRequests_of_resetPort {s : State} (h : s.resetPort = false) :
    lowerRequests s = { s with startPort := false } := by
  rw [lowerRequests, ← h]

/-- Settles O18: the longer run begins with that one step. -/
theorem ignoredStartIsNotRemembered : Obligations.IgnoredStartIsNotRemembered := by
  intro s hrun hreset hstart
  have hstep := step_of_startPort_busy hrun hreset hstart
  rw [lowerRequests_of_resetPort hreset] at hstep
  exact ⟨hstep, fun n => steps_succ_of_next n hstep⟩

/-! The levels of the ports. -/

theorem advance_drivePorts (nxt : Next) (s : State) (c : BitVec 1) (x : Block) (k : Key) :
    advance nxt (drivePorts c x k s) = drivePorts c x k (advance nxt s) := by
  cases nxt with
  | goto r ph => rfl
  | complete => rfl

/-- Settles O36, by the four kinds of step: a RESET, an ignored START and an engine at rest keep the levels, and
the sequencer's row, its operands and its advance do not read them. -/
theorem portsAreReadOnlyByStart : Obligations.PortsAreReadOnlyByStart := by
  intro s t c x k hno hstep
  show step (drivePorts c x k s) = .next (drivePorts c x k t)
  obtain ⟨hreset, e⟩ | ⟨hreset, hstart, -⟩ | ⟨hq, hrun, e⟩ | ⟨hq, hrun, e⟩ := step_cases s
  · rw [e] at hstep
    cases hstep
    exact step_of_resetPort (s := drivePorts c x k s) hreset
  · have hrun : s.run = .busy := by simpa [hreset, hstart] using hno
    rw [step_of_startPort_busy hrun hreset hstart] at hstep
    cases hstep
    exact step_of_startPort_busy (s := drivePorts c x k s) hrun hreset hstart
  · obtain ⟨op, nxt, _, hrow, -, -⟩ | ⟨-, hrefused⟩ := engineStep_cases s
    · rw [step_of_row hq hrun hrow] at hstep
      cases hstep
      rw [← advance_drivePorts]
      exact step_of_row (s := drivePorts c x k s) hq hrun hrow
    · rw [e, hrefused] at hstep
      cases hstep
  · rw [e] at hstep
    cases hstep
    exact step_of_quiet_rest (s := drivePorts c x k s) hq hrun

end Sys2Proof.Machine

/-! ## The protocol over whole runs (70_reset_and_hazards.md R122, R125 to R130) -/

namespace Sys2Proof.Machine

theorem runActions_cons_of_next {a : Action} {s t : State} (as : List Action) (h : act a s = .next t) :
    runActions (a :: as) s = runActions as t := by
  rw [runActions, h]

theorem ControlInv.exists_runActions {s : State} (h : ControlInv s) (as : List Action) :
    ∃ t, runActions as s = .next t ∧ ControlInv t ∧ t.inst = s.inst := by
  induction as generalizing s with
  | nil => exact ⟨s, rfl, h, rfl⟩
  | cons a as ih =>
    obtain ⟨t, hact, ht⟩ := h.exists_act a
    obtain ⟨u, hrun, hu, hinst⟩ := ih ht
    exact ⟨u, (runActions_cons_of_next as hact).trans hrun, hu, hinst.trans (inst_of_act hact)⟩

/-- Settles O43. -/
theorem runsNeverStop : Obligations.RunsNeverStop :=
  fun i as => (controlInv_resetOf i).exists_runActions as

/-- Settles O32: whatever the state, RESET leaves an engine at rest that accepts the START. -/
theorem bootThenCommandGivesTheResult : Obligations.BootThenCommandGivesTheResult := by
  intro s d x k
  obtain ⟨u, hrun, hdout, hinst, -, hdone⟩ :=
    exists_runActions_cipherFun (s := resetEngine (lowerRequests s)) rfl (by simp) d x k
  exact ⟨u, (runActions_cons_of_next _ (act_reset s)).trans hrun, hinst, hdone, hdout⟩

/-- A run that goes through, and then more actions. -/
theorem runActions_append {as : List Action} {s t : State} (h : runActions as s = .next t) (bs : List Action) :
    runActions (as ++ bs) s = runActions bs t := by
  induction as generalizing s with
  | nil => cases h; rfl
  | cons a as ih =>
    cases hact : act a s with
    | next u =>
      rw [runActions_cons_of_next as hact] at h
      rw [List.cons_append, runActions_cons_of_next (as ++ bs) hact, ih h]
    | fault f => rw [runActions, hact] at h; cases h
    | refused r => rw [runActions, hact] at h; cases h

/-- A command under way, through whatever the host does short of RESET, up to its last engine step. -/
theorem UnderWay.exists_runActions_done {i : Instance} {d : BitVec 1} {x : Block} {k : Key} {s : State}
    {as : List Action} (h : UnderWay i d x k 0 s) (has : Action.reset ∉ as)
    (hcount : as.count .engine + 1 = 3 * i.rounds) :
    ∃ u, runActions (as ++ [.engine]) s = .next u ∧ u.dout = some (cipherFun i d x k) := by
  obtain ⟨t, hrun, ht⟩ := h.exists_runActions has (by omega)
  rw [Nat.zero_add] at ht
  obtain ⟨u, hstep, hdout⟩ := ht.exists_step_done hcount
  rw [hcount, blockAfter_eq_cipherFun] at hdout
  exact ⟨u, (runActions_append hrun _).trans (runActions_cons_of_next [] hstep), hdout⟩

/-- Settles O33: the actions before the last engine step keep the command under way. -/
theorem hostCannotDisturbACommand : Obligations.HostCannotDisturbACommand := by
  intro s i as hreset hstart hrest hi has hcount hlast
  obtain ⟨bs, rfl⟩ := List.getLast?_eq_some_iff.mp hlast
  have hbegin := underWay_startCommand (if i = .enc then 0 else 1) ⟨hreset, hstart⟩ (run_ne_busy_of_atRest hrest)
  rw [List.count_append] at hcount
  obtain ⟨u, hrun, hdout⟩ := hbegin.exists_runActions_done (fun h => has (List.mem_append_left _ h)) hcount
  refine ⟨_, u, exec_command hi s, hrun, State.run_of_dout hdout, ?_⟩
  rw [hdout]
  rcases hi with rfl | rfl <;> rfl

end Sys2Proof.Machine

/-! ## The inverse relation in the other direction, and its corner cases (41_key_mixer.md R67; 44_encode.md and
45_decode.md, Corner cases) -/

namespace Sys2Proof.Machine

/-- Settles O11. -/
theorem keyMixUndoesItself : Obligations.KeyMixUndoesItself := by
  intro s t h
  rw [exec_kmix] at h
  cases h
  simp [exec_kmix]

/-- Settles O24: reversing the encoder's rounds brings its last one, which does not permute, to the front. -/
theorem decUndoesEncInReverse : Obligations.DecUndoesEncInReverse := by
  intro rounds hpos
  obtain ⟨m, rfl⟩ := Nat.exists_eq_add_of_le' hpos
  rw [commandOps_encode, commandOps_decode, List.reverse_append, List.map_append, List.reverse_flatten,
    List.map_flatten, List.map_replicate, List.reverse_replicate, List.map_replicate]
  rfl

/-- Settles O26: the blocks are finite, so that the encoder, which has a left inverse, reaches every one. -/
theorem encodeInvertsDecode : Obligations.EncodeInvertsDecode := by
  intro i y k
  have hinj : Function.Injective (fun x => encFun i x k) :=
    Function.LeftInverse.injective (g := fun c => decFun i c k) fun x => decodeInvertsEncode i x k
  obtain ⟨x, rfl⟩ := Finite.injective_iff_surjective.mp hinj y
  exact congrArg (fun x => encFun i x k) (decodeInvertsEncode i x k)

/-- Settles O27: each command is the other's inverse on both sides. -/
theorem commandsAreBijections : Obligations.CommandsAreBijections := by
  intro i k
  have hdecEnc : Function.LeftInverse (fun y => decFun i y k) (fun x => encFun i x k) :=
    fun x => decodeInvertsEncode i x k
  have hencDec : Function.RightInverse (fun y => decFun i y k) (fun x => encFun i x k) :=
    fun y => encodeInvertsDecode i y k
  exact ⟨⟨hdecEnc.injective, hencDec.surjective⟩, ⟨hencDec.injective, hdecEnc.surjective⟩⟩

/-- Settles O28: the only round is the last of the encoder and the first of the decoder. -/
theorem oneRoundHasNoPermutation : Obligations.OneRoundHasNoPermutation := by
  intro i x k hone
  have hlast : lastRound i.rounds 0 = true := by simp [lastRound, hone]
  have henc : encFun i x k = encRound i k x 0 := by rw [encFun, hone]; rfl
  have hdec : decFun i x k = decRound i k x 0 := by rw [decFun, hone]; rfl
  rw [henc, hdec, encRound, if_pos hlast, decRound]
  exact ⟨rfl, rfl⟩

end Sys2Proof.Machine
